-- ==== Sys2Proof/Word.lean ====
section
/-! DEFINITION. The widths of the engine's values (spec 00_scope R5, R8): one name for each. -/

namespace Sys2Proof

/-- A 64-bit block, or a 64-bit operand or response (R5, R72, R75). -/
abbrev Block := BitVec 64

/-- The 64-bit master key a host supplies (R5). -/
abbrev MasterKey := BitVec 64

/-- One 32-bit half of a block (R24). -/
abbrev Half := BitVec 32

/-- The 56-bit permuted key (R21). -/
abbrev PermKey := BitVec 56

/-- A 28-bit key half (R23). -/
abbrev KeyHalf := BitVec 28

/-- A 48-bit subkey, or another 48-bit value of the round function (R116, R130). -/
abbrev SubKey := BitVec 48

/-- The 4-bit structural round index (R26). -/
abbrev RoundIdx := BitVec 4

/-- One byte, the unit in which the host lays an encoding out. -/
abbrev Byte := BitVec 8

end Sys2Proof
end

