-- ==== Sys2Proof/Syntax.lean ====
section
/-! DEFINITION. The instructions: one constructor for each row of spec/opcode_table.json (4 commands of format
CMD66, 5 sequencer steps of format SEQ7, 8 operations of the permutation unit of format PU3), the three formats, the
eight ROM banks, and the reasons the decoder rejects a sequence of bytes. -/

namespace Sys2Proof

/-- The eight ROM banks of rule R51, in the order of their numbers 0 to 7. -/
inductive Bank where
  | ip | fp | pc1 | pc2 | e | s | p | roundShift
  deriving DecidableEq, Repr

/-- The three formats of encodings: the command word (R70), the step selector (R76), the bank selector (R77). -/
inductive Format where
  | cmd66 | seq7 | pu3
  deriving DecidableEq, Repr

/-- An encoded instruction: a word of one of the three formats. -/
inductive Code where
  /-- The 66-bit command word of rule R70. -/
  | cmd (w : BitVec 66)
  /-- The 7-bit step selector of rule R76. -/
  | seq (w : BitVec 7)
  /-- The 3-bit bank selector of rule R77. -/
  | pu (w : BitVec 3)
  deriving DecidableEq, Repr

/-- Why the decoder rejects a sequence of bytes: no bit pattern of a format is itself illegal (R73, R76, R77). -/
inductive DecodeReject where
  /-- The number of bytes is not that of the format. -/
  | wrongLength
  /-- A bit above the format's width is set. -/
  | excessBits
  deriving DecidableEq, Repr

/-- The instructions, one constructor for each row of the opcode table. Bits a step does not read (`d`, `rrrr` of
R76, the operand of `NOP`) are kept, so that an encoding loses no bit. -/
inductive Instr where
  /-- `NOP`, opcode `00` (R144). -/
  | nop (operand : Block)
  /-- `SETKEY key`, opcode `01` (R141). -/
  | setkey (key : MasterKey)
  /-- `ENCRYPT block`, opcode `10` (R142, R145). -/
  | encrypt (block : Block)
  /-- `DECRYPT block`, opcode `11` (R143, R146). -/
  | decrypt (block : Block)
  /-- `STEP.WAIT`, selector `00drrrr` (R76, R140). -/
  | stepWait (dir : Bool) (rnd : RoundIdx)
  /-- `STEP.ROUND.ENC`, selector `010rrrr` (R147). -/
  | stepRoundEnc (rnd : RoundIdx)
  /-- `STEP.ROUND.DEC`, selector `011rrrr` (R148). -/
  | stepRoundDec (rnd : RoundIdx)
  /-- `STEP.FINAL`, selector `10drrrr` (R149). -/
  | stepFinal (dir : Bool) (rnd : RoundIdx)
  /-- `STEP.RESPOND`, selector `11drrrr` (R150). -/
  | stepRespond (dir : Bool) (rnd : RoundIdx)
  /-- `APPLY.IP`, bank `000` (R93). -/
  | applyIp
  /-- `APPLY.FP`, bank `001` (R94). -/
  | applyFp
  /-- `APPLY.PC1`, bank `010` (R95). -/
  | applyPc1
  /-- `APPLY.PC2`, bank `011` (R96). -/
  | applyPc2
  /-- `APPLY.E`, bank `100` (R97). -/
  | applyE
  /-- `APPLY.S`, bank `101` (R98). -/
  | applyS
  /-- `APPLY.P`, bank `110` (R99). -/
  | applyP
  /-- `RSH`, bank `111`: the rotation-amount lookup (R100). -/
  | rsh
  deriving DecidableEq, Repr

end Sys2Proof
end

