-- ==== Sys2Proof/Config.lean ====
section
/-! DEFINITION. What is fixed for one engine and not state (R12): the contents of the ROM banks as raw data, and the
constants that the spec leaves open. Every open constant is opaque and has no body, so nothing can be proved from a
particular value of it. -/

namespace Sys2Proof

/-- The raw contents of the eight ROM banks, as a checking tool meets them (R51, R171): any lists of numbers, well
formed or not. Entry 0 first; entries of banks 0 to 6 are 1-indexed bit positions (R7, R78), entries of bank 7 are
rotation amounts. -/
structure RomImage where
  ip  : List Nat
  fp  : List Nat
  pc1 : List Nat
  pc2 : List Nat
  e   : List Nat
  s   : List Nat
  p   : List Nat
  rs  : List Nat
  deriving DecidableEq, Repr

/-- The bijection of 64 places that the installed IP is made from: OPEN (R6, R91 (d), 92 D12; log 1). -/
opaque Config.ipPlaces : Equiv.Perm (Fin 64)

/-- The source places the installed PC1 selects, counted from 0: OPEN (R6; log 1). -/
opaque Config.pc1Places : Fin 56 → Fin 64

/-- The source places the installed PC2 selects, counted from 0: OPEN (R6; log 1). -/
opaque Config.pc2Places : Fin 48 → Fin 56

/-- The source places the installed E selects, counted from 0: OPEN (R6; log 1). -/
opaque Config.ePlaces : Fin 48 → Fin 32

/-- The source places the installed S selects, counted from 0: OPEN (R6; log 1). -/
opaque Config.sPlaces : Fin 32 → Fin 48

/-- The source places the installed P selects, counted from 0: OPEN (R6; log 1). -/
opaque Config.pPlaces : Fin 32 → Fin 32

/-- FREE VALUE: the unspecified `KEYREG` that a block command accepted while `KV = 0` runs with (R22, R38, 93 U7; log
3), at the draw the state's counter names and from what the register `KEYREG` holds: the response depends on it (R178)
in a way that nothing is said of. -/
opaque Config.unsetKey : Nat → PermKey → PermKey

/-- FREE VALUE: what `rsp_data` carries while `rsp_valid = 0` (R28, 93 U8; log 4), at the draw the state's counter
names. -/
opaque Config.idleRspData : Nat → Block

/-- OPEN: one less than the number of clock cycles a sequencer step takes (R6, R197; log 8). -/
opaque Config.extraStepCycles : Nat

/-- `STEP_CYCLES`, at least 1 (R6, R197). No rule reads it. -/
def Config.stepCycles : Nat := Config.extraStepCycles + 1

end Sys2Proof
end

