-- ==== Sys2Proof/Machine/Rom.lean ====
section
/-! DEFINITION. The ROM banks: their numbers, lengths, source widths and storage widths (R51), the fixed rotation
amounts (R100), the well-formedness of a configuration (R91) and the construction-time check with its codes and
priority (R171 to R173). -/

namespace Sys2Proof.Machine

/-- The eight banks in the order of their numbers (R51). -/
def allBanks : List Bank := [.ip, .fp, .pc1, .pc2, .e, .s, .p, .roundShift]

/-- Banks 0 to 6, which hold bit positions and are read by `Apply` (R51). -/
def selectionBanks : List Bank := [.ip, .fp, .pc1, .pc2, .e, .s, .p]

/-- The 3-bit bank number (R51, R77). -/
def bankNumber : Bank → BitVec 3
  | .ip => 0 | .fp => 1 | .pc1 => 2 | .pc2 => 3 | .e => 4 | .s => 5 | .p => 6 | .roundShift => 7

/-- The contents of one bank. -/
def bankTable (t : RomImage) : Bank → List Nat
  | .ip => t.ip | .fp => t.fp | .pc1 => t.pc1 | .pc2 => t.pc2
  | .e => t.e | .s => t.s | .p => t.p | .roundShift => t.rs

/-- The number of entries of a bank, which is its output width (R51, R91 (a)). -/
def bankLength : Bank → Nat
  | .ip => 64 | .fp => 64 | .pc1 => 56 | .pc2 => 48 | .e => 48 | .s => 32 | .p => 32 | .roundShift => 16

/-- The source width of a bit-selection bank, the largest legal entry (R51, R91 (c)); for bank 7 the largest
amount. -/
def bankSource : Bank → Nat
  | .ip => 64 | .fp => 64 | .pc1 => 64 | .pc2 => 56 | .e => 32 | .s => 48 | .p => 32 | .roundShift => 2

/-- The width of the storage that receives a bank's output (R91 (b)): `L ‖ R` for IP, `DOUT` for FP, `KEYREG` for
PC1, the subkey for PC2, the values inside the round function for E, S, P. DEDUCED: bank 7 is no selection; its sixteen
entries are all it may hold (log 18). -/
def bankStorage : Bank → Nat
  | .ip => 64 | .fp => 64 | .pc1 => 56 | .pc2 => 48 | .e => 48 | .s => 32 | .p => 32 | .roundShift => 16

/-- The sixteen rotation amounts, fixed by the source (R100): rounds 0, 1, 8, 15 rotate by 1, all others by 2. -/
def roundShift : List Nat := [1, 1, 2, 2, 2, 2, 2, 2, 1, 2, 2, 2, 2, 2, 2, 1]

/-- An entry of a bank lies in its legal range (R51, R91 (c)). -/
def entryInRange (b : Bank) (e : Nat) : Bool := decide (1 ≤ e ∧ e ≤ bankSource b)

/-- The entry of FP at `j` names the place of IP whose entry is `j + 1` (R91 (d)). -/
def fpInvertsAt (t : RomImage) (j : Nat) : Bool := t.ip.getD (t.fp.getD j 0 - 1) 0 == j + 1

/-- Well-formedness of a ROM configuration, conditions (a) to (e) of rule R91 in their order. -/
abbrev romWellFormed (t : RomImage) : Prop :=
  (∀ b ∈ allBanks, (bankTable t b).length = bankLength b) ∧
  (∀ b ∈ allBanks, (bankTable t b).length ≤ bankStorage b) ∧
  (∀ b ∈ selectionBanks, ∀ e ∈ bankTable t b, entryInRange b e = true) ∧
  (∀ j ∈ List.range 64, fpInvertsAt t j = true) ∧
  t.rs = roundShift

/-- The codes of the construction-time contract violations (R171). -/
inductive Violation where
  /-- V1 `TableLength`. -/
  | tableLength
  /-- V2 `OutputTooWide`. -/
  | outputTooWide
  /-- V3 `EntryRange`. -/
  | entryRange
  /-- V4 `FpNotInverse`. -/
  | fpNotInverse
  /-- V5 `RoundShiftValues`. -/
  | roundShiftValues
  deriving DecidableEq, Repr

/-- The record a checker gives (R171): the code, the bank and, for V3 and V4, the index of the first offending
entry (log 18). -/
structure Report where
  code  : Violation
  bank  : Bank
  index : Option Nat
  deriving DecidableEq, Repr

/-- V1: the first bank whose number of entries is not its output width (R171). -/
def checkLength (t : RomImage) : Option Report :=
  (allBanks.find? fun b => (bankTable t b).length != bankLength b).map fun b => ⟨.tableLength, b, none⟩

/-- V2: the first bank whose output is wider than its storage (R171). -/
def checkStorage (t : RomImage) : Option Report :=
  (allBanks.find? fun b => decide (bankStorage b < (bankTable t b).length)).map fun b => ⟨.outputTooWide, b, none⟩

/-- V3: the first entry out of its bank's range, lowest bank first, then lowest index (R171, R173). -/
def checkEntries (t : RomImage) : Option Report :=
  selectionBanks.findSome? fun b =>
    ((bankTable t b).findIdx? fun e => !entryInRange b e).map fun i => ⟨.entryRange, b, some i⟩

/-- V4: the first entry of FP that does not invert IP (R171). -/
def checkInverse (t : RomImage) : Option Report :=
  ((List.range 64).find? fun j => !fpInvertsAt t j).map fun j => ⟨.fpNotInverse, .fp, some j⟩

/-- V5: the rotation amounts are not the sixteen fixed values (R171). -/
def checkAmounts (t : RomImage) : Option Report :=
  if t.rs = roundShift then none else some ⟨.roundShiftValues, .roundShift, none⟩

/-- The static check of a ROM configuration (R171, R172): the report of the first violation in the priority order V1,
V2, V3, V4, V5 (R173), or none. -/
def romCheck (t : RomImage) : Option Report :=
  checkLength t <|> checkStorage t <|> checkEntries t <|> checkInverse t <|> checkAmounts t

/-- The 9-bit ROM address of an entry, `bank ‖ index` with the index in 6 bits (R52). -/
def romAddress (b : Bank) (i : BitVec 6) : BitVec 9 := bankNumber b ++ i

/-- The bank with a given number (R51). -/
def bankOfNumber (n : BitVec 3) : Bank :=
  if n = 0 then .ip else if n = 1 then .fp else if n = 2 then .pc1 else if n = 3 then .pc2
  else if n = 4 then .e else if n = 5 then .s else if n = 6 then .p else .roundShift

/-- `RomRead(bank, i)`, the only memory primitive (R52): the entry, and no value outside the bank's index range. -/
def romRead (t : RomImage) (b : Bank) (i : Nat) : Option Nat := (bankTable t b)[i]?

/-- The read at a 9-bit ROM address (R52). -/
def romReadAt (t : RomImage) (a : BitVec 9) : Option Nat :=
  romRead t (bankOfNumber (a.extractLsb' 6 3)) (a.extractLsb' 0 6).toNat

/-- An entry of banks 0 to 6 as stored: the 1-indexed position as a 7-bit number (R78). -/
def positionBits (e : Nat) : BitVec 7 := BitVec.ofNat 7 e

/-- An entry of bank 7 as stored: the amount as a 2-bit number (R78). -/
def amountBits (e : Nat) : BitVec 2 := BitVec.ofNat 2 e

end Sys2Proof.Machine
end

