-- ==== Sys2Proof/WellFormed.lean ====
section
/-! DEFINITION. What is well formed: every instruction (its fields carry the spec's widths as their types), and a ROM
configuration by rule R91, which the record `Cfg` carries with its proof (R6, R172). -/

namespace Sys2Proof

/-- Well-formedness of an instruction. The widths of R70, R76 and R77 are the fields' types, every 64-bit operand is
legal (R72), and every selector value names a step or an operation (R76, R77): no further check is left. -/
def Instr.wf : Instr → Bool
  | .nop _ => true
  | .setkey _ => true
  | .encrypt _ => true
  | .decrypt _ => true
  | .stepWait _ _ => true
  | .stepRoundEnc _ => true
  | .stepRoundDec _ => true
  | .stepFinal _ _ => true
  | .stepRespond _ _ => true
  | .applyIp => true
  | .applyFp => true
  | .applyPc1 => true
  | .applyPc2 => true
  | .applyE => true
  | .applyS => true
  | .applyP => true
  | .rsh => true

/-- A ROM configuration: the contents of the banks with the proof that they are well formed (R6, R91, R172). An ill
formed configuration is no configuration. -/
structure Cfg where
  rom : RomImage
  wf  : Machine.romWellFormed rom

end Sys2Proof
end

