-- ==== Sys2Proof/Machine/Installed.lean ====
section
/-! DEFINITION. The configuration of the modelled engine: the tables made from the open constants of Config (R6, 92
D12; log 1). Every well-formed configuration arises from some choice of those constants. -/

namespace Sys2Proof.Machine

/-- A table from the places it selects: entry `i` is the 1-indexed position of place `f i` (R7, R78). -/
def tableOf {m n : Nat} (f : Fin m → Fin n) : List Nat := List.ofFn fun i => (f i).val + 1

/-- The installed ROM contents. FP is made from the inverse of the bijection IP is made from (R91 (d)). -/
def installedRom : RomImage where
  ip  := tableOf fun i => Config.ipPlaces i
  fp  := tableOf fun i => Config.ipPlaces.symm i
  pc1 := tableOf Config.pc1Places
  pc2 := tableOf Config.pc2Places
  e   := tableOf Config.ePlaces
  s   := tableOf Config.sPlaces
  p   := tableOf Config.pPlaces
  rs  := roundShift

theorem tableOf_length {m n : Nat} (f : Fin m → Fin n) : (tableOf f).length = m := by simp [tableOf]

theorem tableOf_range {m n : Nat} (f : Fin m → Fin n) : ∀ e ∈ tableOf f, 1 ≤ e ∧ e ≤ n := by
  intro e he
  obtain ⟨i, rfl⟩ : ∃ i, (f i).val + 1 = e := by simpa [tableOf, List.mem_ofFn] using he
  have := (f i).isLt
  omega

theorem tableOf_getD {m n : Nat} (f : Fin m → Fin n) (i : Nat) (h : i < m) :
    (tableOf f).getD i 0 = (f ⟨i, h⟩).val + 1 := by
  simp [tableOf, List.getD, h]

theorem installedRom_wellFormed : romWellFormed installedRom := by
  refine ⟨?_, ?_, ?_, ?_, rfl⟩
  · simp [allBanks, bankTable, bankLength, installedRom, tableOf_length, roundShift]
  · simp [allBanks, bankTable, bankStorage, installedRom, tableOf_length, roundShift]
  · have key : ∀ {m n : Nat} (f : Fin m → Fin n) (b : Bank), bankSource b = n →
        ∀ e ∈ tableOf f, entryInRange b e = true := by
      intro m n f b hb e he
      simpa [entryInRange, hb] using tableOf_range f e he
    simp only [selectionBanks, List.forall_mem_cons, bankTable, installedRom]
    exact ⟨key _ _ rfl, key _ _ rfl, key _ _ rfl, key _ _ rfl, key _ _ rfl, key _ _ rfl, key _ _ rfl, by simp⟩
  · intro j hj
    have hj' : j < 64 := List.mem_range.mp hj
    unfold fpInvertsAt
    simp only [installedRom]
    rw [tableOf_getD _ j hj', Nat.add_sub_cancel, tableOf_getD _ _ (Fin.isLt _)]
    simp

/-- The configuration of the modelled engine. -/
def installed : Cfg := ⟨installedRom, installedRom_wellFormed⟩

end Sys2Proof.Machine
end

