-- ==== Sys2Proof/Machine/State.lean ====
section
/-! DEFINITION. The state of the machine as plain data: the ten registers of rule R20, the levels the host presents on
the input ports (R31), and the model's own fields (the responses the host has taken, the counter of the free values,
the operand and result of a unit operation run alone); the faults, the refusals, and the state after reset (R38). -/

namespace Sys2Proof.Machine

/-- The sequencer's phase `PH` (R25). All four codes are used. -/
inductive Phase where
  /-- `00`: no command in progress. -/
  | idle
  /-- `01`: a round step is next. -/
  | round
  /-- `10`: the final step is next. -/
  | final
  /-- `11`: `DOUT` holds the result. -/
  | resp
  deriving DecidableEq, Repr

/-- The levels the host presents on the input ports at one step (R31). -/
structure PortsIn where
  /-- `rst`: synchronous reset, active high (R190). -/
  rst      : Bool
  /-- `cmd_valid`: the host offers a command (R140). -/
  cmdValid : Bool
  /-- `cmd_op`: the opcode (R71). -/
  cmdOp    : BitVec 2
  /-- `cmd_data`: the operand (R72). -/
  cmdData  : Block
  /-- `rsp_ready`: the host takes the result (R150). -/
  rspReady : Bool
  deriving DecidableEq, Repr

/-- What the rounds work on: the two key halves and the two block halves (R23, R24). -/
structure Work where
  kh0 : KeyHalf
  kh1 : KeyHalf
  l   : Half
  r   : Half
  deriving DecidableEq, Repr

/-- The state of one engine (log 17). Its first ten fields are the registers of rule R20, which are the engine's whole
state. -/
structure State where
  /-- `KEYREG`, the stored permuted key (R21). -/
  keyreg  : PermKey
  /-- `KV`, the key-valid flag (R22). -/
  kv      : Bool
  /-- `KH[0]`, the first key half (R23). -/
  kh0     : KeyHalf
  /-- `KH[1]`, the second key half (R23). -/
  kh1     : KeyHalf
  /-- `L`, the upper block half (R24). -/
  l       : Half
  /-- `R`, the lower block half, which the round function reads (R24). -/
  r       : Half
  /-- `PH`, the sequencer's phase (R25). -/
  ph      : Phase
  /-- `RND`, the structural round index (R26). -/
  rnd     : RoundIdx
  /-- `DIR`, the direction: false encrypts, true decrypts (R27). -/
  dir     : Bool
  /-- `DOUT`, the result block (R28). -/
  dout    : Block
  /-- The host agent (R11): the levels it presents at the steps to come, the next one first. Where the list has ended
  every level is low (log 6). -/
  ports   : List PortsIn
  /-- MODEL'S OWN: the responses the host has taken, in order (R80, R150; log 7). -/
  taken   : List Block
  /-- MODEL'S OWN: the counter the free values are applied to (log 5). -/
  draw    : Nat
  /-- MODEL'S OWN: the bank selector of a unit operation that the next step runs alone (R77; log 9). -/
  unitSel : Option (BitVec 3)
  /-- MODEL'S OWN: the operand of such an operation, in the low bits (R90; log 9). -/
  unitIn  : Block
  /-- MODEL'S OWN: the result of such an operation, zero-extended (R90; log 9). -/
  unitOut : Block
  deriving DecidableEq, Repr

/-- The faults: none. "The engine raises no exception, fault or trap at run time, for any command with any operand in
any state" (R170). -/
inductive Fault where
  deriving DecidableEq, Repr

/-- Why the model gives no next state. -/
inductive Refusal where
  /-- Raised by an arm of `exec` whose instruction has no meaning yet, by its mnemonic. Safe. No arm raises it. -/
  | notModelled (mnemonic : String)
  /-- Raised by the meaning of a sequencer step (SEQ7) run in a state whose selector does not name it: rule R152 gives
  no such transition. The machine's own step never raises it. Safe (log 10). -/
  | notSelected
  deriving DecidableEq, Repr

/-- What one instruction or one step answers. -/
abbrev Out := Host.Outcome State Fault Refusal

/-- All input ports low. -/
def PortsIn.quiet : PortsIn := ⟨false, false, 0, 0, false⟩

/-- The machine right after reset (R38): `PH` is IDLE and `KV` is 0. The spec gives the other registers no value:
DESIGN CHOICE zero (log 2). The model has no state before it (log 13). The host presents nothing, nothing has been
taken, no unit operation is presented (log 5, 6, 7, 9). -/
def State.reset : State where
  keyreg  := 0
  kv      := false
  kh0     := 0
  kh1     := 0
  l       := 0
  r       := 0
  ph      := .idle
  rnd     := 0
  dir     := false
  dout    := 0
  ports   := []
  taken   := []
  draw    := 0
  unitSel := none
  unitIn  := 0
  unitOut := 0

/-- The working registers of the rounds. -/
def State.work (s : State) : Work := ⟨s.kh0, s.kh1, s.l, s.r⟩

/-- Write the working registers of the rounds, all together. -/
def State.withWork (s : State) (w : Work) : State := { s with kh0 := w.kh0, kh1 := w.kh1, l := w.l, r := w.r }

end Sys2Proof.Machine
end

