-- ==== Sys2Proof/Machine/Operands.lean ====
section
/-! DEFINITION. Where operands come from: the levels on the input ports (R31), the command word of an accept event
(R70, R72), the stored key an accept step reads (R21, R22), the halves of a block and of a key (R9, R112, R145, R151)
and the operand and result of a unit operation run alone (R90; log 9). -/

namespace Sys2Proof.Machine

/-- The levels on the input ports at this step; low where the host's list has ended (R31; log 6). -/
def inputs (s : State) : PortsIn := s.ports.headD PortsIn.quiet

/-- The 66-bit word `cmd_op ‖ cmd_data` (R70). -/
def commandWord (s : State) : BitVec 66 := (inputs s).cmdOp ++ (inputs s).cmdData

/-- The permuted key an accept step reads: `KEYREG`. While `KV = 0` what `KEYREG` holds is unspecified (R22, R38, 93
U7), so a free value that depends on it is read (R178; log 3). -/
def keyRead (s : State) : PermKey := if s.kv then s.keyreg else Config.unsetKey s.draw s.keyreg

/-- The upper 32 bits of a block, `x[63:32]` (R145). -/
def upperHalf (x : Block) : Half := x.extractLsb' 32 32

/-- The lower 32 bits of a block, `x[31:0]` (R145). -/
def lowerHalf (x : Block) : Half := x.extractLsb' 0 32

/-- The crossed reassembly `R ‖ L`: `R` gives the upper 32 bits, `L` the lower (R151). -/
def crossed (l r : Half) : Block := r ++ l

/-- The first key half of a permuted key, `k[55:28]` (R112). -/
def firstKeyHalf (k : PermKey) : KeyHalf := k.extractLsb' 28 28

/-- The second key half of a permuted key, `k[27:0]` (R112). -/
def secondKeyHalf (k : PermKey) : KeyHalf := k.extractLsb' 0 28

/-- The operand of a unit operation run alone, `n` bits wide: the low bits of the field (R90, R92 (v); log 9). -/
def unitOperand (n : Nat) (s : State) : BitVec n := s.unitIn.setWidth n

/-- Deliver the result of a unit operation run alone, zero-extended (R9, R90; log 9). No register is written. -/
def unitResult {n : Nat} (s : State) (v : BitVec n) : State := { s with unitOut := v.setWidth 64 }

end Sys2Proof.Machine
end

