-- ==== Sys2Proof/Machine/Flags.lean ====
section
/-! DEFINITION. The status the engine shows: the output ports as functions of the state (R30, R31). The engine has no
condition codes; its only flag is `KV` (R37). -/

namespace Sys2Proof.Machine

/-- `busy = (PH != IDLE)` (R30). -/
def busy (s : State) : Bool := s.ph != .idle

/-- `key_valid = KV` (R30). -/
def keyValid (s : State) : Bool := s.kv

/-- `rsp_valid = (PH == RESP)` (R30). -/
def rspValid (s : State) : Bool := s.ph == .resp

/-- `cmd_ready = (PH == IDLE) and (rst == 0)` (R30). -/
def cmdReady (s : State) : Bool := s.ph == .idle && !(inputs s).rst

/-- `rsp_data`: `DOUT` while `rsp_valid = 1`, a free value at any other time (R28, 93 U8; log 4). -/
def rspData (s : State) : Block := if rspValid s then s.dout else Config.idleRspData s.draw

/-- The accept event: `rst = 0`, `cmd_valid = 1` and `cmd_ready = 1` (R140). -/
def acceptEvent (s : State) : Bool := (inputs s).cmdValid && cmdReady s

/-- The respond event's condition on the ports: `rsp_ready = 1` with `rst = 0` (R150). -/
def respondEvent (s : State) : Bool := (inputs s).rspReady && !(inputs s).rst

end Sys2Proof.Machine
end

