-- ==== Sys2Proof/Machine/Ops.lean ====
section
/-! DEFINITION. The shared operations: bit selection and its seven named uses (R90, R93 to R99), the rotation amount
(R100), the key-schedule micro-operations (R110 to R116), the round function and the round (R130, R131), the parts of
the sequencer steps (R140, R145 to R149), and reset (R190). The engine has no exception and no trap return (R170, R175,
R176): reset is the only thing that abandons a command (R191). -/

namespace Sys2Proof.Machine

/-- The value a table selects from `v`: entry `e` first gives bit `e - 1` of `v` as bit 0, and so on (R90, the gather
convention; R7, R101). -/
def selectBits (v : Nat) : List Nat → Nat
  | [] => 0
  | e :: es => (v >>> (e - 1)) % 2 + 2 * selectBits v es

/-- `Apply(T, v)` with a result of `w` bits (R90). -/
def applyTable {n : Nat} (w : Nat) (table : List Nat) (v : BitVec n) : BitVec w :=
  BitVec.ofNat w (selectBits v.toNat table)

/-- `APPLY.IP` (R93). -/
def selectIp (c : Cfg) (v : Block) : Block := applyTable 64 c.rom.ip v

/-- `APPLY.FP` (R94). -/
def selectFp (c : Cfg) (v : Block) : Block := applyTable 64 c.rom.fp v

/-- `APPLY.PC1` (R95). -/
def selectPc1 (c : Cfg) (v : MasterKey) : PermKey := applyTable 56 c.rom.pc1 v

/-- `APPLY.PC2` (R96). -/
def selectPc2 (c : Cfg) (v : PermKey) : SubKey := applyTable 48 c.rom.pc2 v

/-- `APPLY.E` (R97). -/
def selectE (c : Cfg) (v : Half) : SubKey := applyTable 48 c.rom.e v

/-- `APPLY.S` (R98). -/
def selectS (c : Cfg) (v : SubKey) : Half := applyTable 32 c.rom.s v

/-- `APPLY.P` (R99). -/
def selectP (c : Cfg) (v : Half) : Half := applyTable 32 c.rom.p v

/-- `RS(r)`, the rotation amount of round `r`: `RomRead(7, r)` (R100). -/
def rotAmount (c : Cfg) (r : Nat) : Nat := (romRead c.rom .roundShift r).getD 0

/-- `ROTL28(x, n)` for `n` in 0..28 (R110): the width of the type is the mask. -/
def rotl28 (x : KeyHalf) (n : Nat) : KeyHalf := x <<< n ||| x >>> (28 - n)

/-- `ROTR28(x, n)` for `n` in 0..28 (R111). -/
def rotr28 (x : KeyHalf) (n : Nat) : KeyHalf := x >>> n ||| x <<< (28 - n)

/-- Rotate both key halves of the working registers left. -/
def turnLeft (n : Nat) (w : Work) : Work := { w with kh0 := rotl28 w.kh0 n, kh1 := rotl28 w.kh1 n }

/-- Rotate both key halves of the working registers right. -/
def turnRight (n : Nat) (w : Work) : Work := { w with kh0 := rotr28 w.kh0 n, kh1 := rotr28 w.kh1 n }

/-- `KS.LOAD` beside the halves of a permuted block: the working registers at the start of a command (R112, R145). -/
def ksLoad (k : PermKey) (x : Block) : Work := ⟨firstKeyHalf k, secondKeyHalf k, upperHalf x, lowerHalf x⟩

/-- `KS.FWD(r)` (R113). -/
def ksFwd (c : Cfg) (r : Nat) (w : Work) : Work := turnLeft (rotAmount c r) w

/-- `KS.PREROT`: both halves left through all sixteen amounts (R114). -/
def ksPrerot (c : Cfg) (w : Work) : Work := (List.range 16).foldl (fun w j => ksFwd c j w) w

/-- `KS.REV(r)`: nothing at `r = 0`, else both halves right by `RS(16 - r)` (R115). -/
def ksRev (c : Cfg) (r : Nat) (w : Work) : Work := if r = 0 then w else turnRight (rotAmount c (16 - r)) w

/-- `KS.SUBKEY`: PC2 of `KH[1] ‖ KH[0]` (R116). -/
def ksSubkey (c : Cfg) (w : Work) : SubKey := selectPc2 c (w.kh1 ++ w.kh0)

/-- `F(half, subkey)`: expand, XOR with the subkey, substitute, permute (R130). -/
def roundFunction (c : Cfg) (half : Half) (subkey : SubKey) : Half :=
  selectP c (selectS c (selectE c half ^^^ subkey))

/-- `ROUND(subkey)`: the new `L` is the old `R`, the new `R` the old `L` XOR `F(R, subkey)`, both from the old values
(R131), in every round (R132). -/
def feistelRound (c : Cfg) (subkey : SubKey) (w : Work) : Work :=
  { w with l := w.r, r := w.l ^^^ roundFunction c w.r subkey }

/-- What round `r` of `ENCRYPT` does to the working registers (R147). -/
def encRound (c : Cfg) (r : Nat) (w : Work) : Work :=
  feistelRound c (ksSubkey c (ksFwd c r w)) (ksFwd c r w)

/-- What round `r` of `DECRYPT` does to the working registers (R148). -/
def decRound (c : Cfg) (r : Nat) (w : Work) : Work :=
  feistelRound c (ksSubkey c (ksRev c r w)) (ksRev c r w)

/-- The working registers `ACCEPT.ENC` writes (R145). -/
def encStart (c : Cfg) (k : PermKey) (block : Block) : Work := ksLoad k (selectIp c block)

/-- The working registers `ACCEPT.DEC` writes: as for `ENCRYPT`, the key halves pre-rotated (R146). -/
def decStart (c : Cfg) (k : PermKey) (block : Block) : Work := ksPrerot c (ksLoad k (selectIp c block))

/-- The result block: FP of the crossed halves (R149, R151). -/
def finalBlock (c : Cfg) (w : Work) : Block := selectFp c (crossed w.l w.r)

/-- The next state of a command with effect `t`: `t` at an accept, nothing where the engine is not ready, since then
"nothing the host puts on the command port has any effect" (R140; log 10). -/
def whenReady (s t : State) : Out := .next (if cmdReady s then t else s)

/-- The next state of a step that is enabled only where the selector names it (R147 to R150, R152; log 10). -/
def whenSelected (enabled : Bool) (t : State) : Out := if enabled then .next t else .refused .notSelected

/-- The writes of an accept step of a block command (R145, R146). -/
def startBlock (dir : Bool) (w : Work) (s : State) : State :=
  { s.withWork w with dir := dir, rnd := 0#4, ph := .round }

/-- The writes of a round step: the working registers, and `RND + 1`, or FINAL with `RND` left at 15 (R147, R148). -/
def advanceRound (w : Work) (s : State) : State :=
  if s.rnd = 15#4 then { s.withWork w with ph := .final } else { s.withWork w with rnd := s.rnd + 1#4 }

/-- The writes of a reset edge: `PH <- IDLE` and `KV <- 0` and nothing else (R190, R191; log 14). -/
def resetEdge (s : State) : State := { s with ph := .idle, kv := false }

/-- The next state an outcome answers, if it answers one. -/
def nextOf (o : Out) : Option State :=
  match o with
  | .next t => some t
  | .fault _ => none
  | .refused _ => none

end Sys2Proof.Machine
end

