-- ==== Sys2Proof/Machine/PermutationUnit.lean ====
section
/-! DEFINITION. The eight operations of the permutation unit run alone (R77, R93 to R100): each takes its operand from
`unitIn`, delivers its result in `unitOut`, and reads and writes no register of the engine (R90 "no side effects";
log 9). Inside the sequencer steps the same operations are the functions of Machine/Ops.lean. -/

namespace Sys2Proof.Machine

/-- `APPLY.IP` of a 64-bit value (R93). -/
def applyIpWith (c : Cfg) (s : State) : Out := .next (unitResult s (selectIp c (unitOperand 64 s)))

/-- `APPLY.FP` of a 64-bit value (R94). -/
def applyFpWith (c : Cfg) (s : State) : Out := .next (unitResult s (selectFp c (unitOperand 64 s)))

/-- `APPLY.PC1` of the 64-bit master key (R95). -/
def applyPc1With (c : Cfg) (s : State) : Out := .next (unitResult s (selectPc1 c (unitOperand 64 s)))

/-- `APPLY.PC2` of a 56-bit value (R96). -/
def applyPc2With (c : Cfg) (s : State) : Out := .next (unitResult s (selectPc2 c (unitOperand 56 s)))

/-- `APPLY.E` of a 32-bit half (R97). -/
def applyEWith (c : Cfg) (s : State) : Out := .next (unitResult s (selectE c (unitOperand 32 s)))

/-- `APPLY.S` of a 48-bit value (R98). -/
def applySWith (c : Cfg) (s : State) : Out := .next (unitResult s (selectS c (unitOperand 48 s)))

/-- `APPLY.P` of a 32-bit value (R99). -/
def applyPWith (c : Cfg) (s : State) : Out := .next (unitResult s (selectP c (unitOperand 32 s)))

/-- `RSH` of a 4-bit round index: the amount as the 2-bit number of its entry (R78, R100). -/
def rshWith (c : Cfg) (s : State) : Out :=
  .next (unitResult s (amountBits (rotAmount c (unitOperand 4 s).toNat)))

/-- The meaning of `APPLY.IP`. -/
def execApplyIp (s : State) : Out := applyIpWith installed s

/-- The meaning of `APPLY.FP`. -/
def execApplyFp (s : State) : Out := applyFpWith installed s

/-- The meaning of `APPLY.PC1`. -/
def execApplyPc1 (s : State) : Out := applyPc1With installed s

/-- The meaning of `APPLY.PC2`. -/
def execApplyPc2 (s : State) : Out := applyPc2With installed s

/-- The meaning of `APPLY.E`. -/
def execApplyE (s : State) : Out := applyEWith installed s

/-- The meaning of `APPLY.S`. -/
def execApplyS (s : State) : Out := applySWith installed s

/-- The meaning of `APPLY.P`. -/
def execApplyP (s : State) : Out := applyPWith installed s

/-- The meaning of `RSH`. -/
def execRsh (s : State) : Out := rshWith installed s

end Sys2Proof.Machine
end

