-- ==== Sys2Proof/Decode.lean ====
section
/-! DEFINITION. The decoder of the three formats (R70, R71, R76, R77), total on every word and rejecting a sequence of
bytes by name, and after it the encoder. The place of each field is the spec's: CMD66 `op` 65:64 and operand 63:0;
SEQ7 `PH` 6:5, `DIR` 4, `RND` 3:0; PU3 the bank 2:0. -/

namespace Sys2Proof

/-- The command a CMD66 word stands for: `op` alone tells it (R70, R71). -/
def decodeCmd (w : BitVec 66) : Instr :=
  let op := w.extractLsb' 64 2
  let operand := w.extractLsb' 0 64
  if op = 0b00#2 then .nop operand
  else if op = 0b01#2 then .setkey operand
  else if op = 0b10#2 then .encrypt operand
  else .decrypt operand

/-- The step a SEQ7 selector names (R76). -/
def decodeSeq (w : BitVec 7) : Instr :=
  let ph := w.extractLsb' 5 2
  let dir := w.getLsbD 4
  let rnd := w.extractLsb' 0 4
  if ph = 0b00#2 then .stepWait dir rnd
  else if ph = 0b01#2 then (if dir then .stepRoundDec rnd else .stepRoundEnc rnd)
  else if ph = 0b10#2 then .stepFinal dir rnd
  else .stepRespond dir rnd

/-- The operation of the permutation unit a PU3 selector names (R77). -/
def decodePu (w : BitVec 3) : Instr :=
  if w = 0b000#3 then .applyIp
  else if w = 0b001#3 then .applyFp
  else if w = 0b010#3 then .applyPc1
  else if w = 0b011#3 then .applyPc2
  else if w = 0b100#3 then .applyE
  else if w = 0b101#3 then .applyS
  else if w = 0b110#3 then .applyP
  else .rsh

/-- The instruction an encoded word stands for. Every word of every format has one (R73, R76, R77). -/
def decode : Code → Instr
  | .cmd w => decodeCmd w
  | .seq w => decodeSeq w
  | .pu w => decodePu w

/-- The width of a format in bits (R70, R76, R77). -/
def formatBits : Format → Nat
  | .cmd66 => 66
  | .seq7 => 7
  | .pu3 => 3

/-- The number of whole bytes a word of a format takes when it is laid out as bytes. -/
def formatBytes : Format → Nat
  | .cmd66 => 9
  | .seq7 => 1
  | .pu3 => 1

/-- The word of a format whose bits are the low bits of `n`. -/
def codeOfNat (f : Format) (n : Nat) : Code :=
  match f with
  | .cmd66 => .cmd (BitVec.ofNat 66 n)
  | .seq7 => .seq (BitVec.ofNat 7 n)
  | .pu3 => .pu (BitVec.ofNat 3 n)

/-- The number a sequence of bytes stands for, the first byte least significant. DESIGN CHOICE: the engine has no byte
order (R55); this one is how the opcode table numbers the bits of a row (log 12). -/
def bytesToNat : List Byte → Nat
  | [] => 0
  | b :: bs => b.toNat + 256 * bytesToNat bs

/-- `k` bytes of a number, the least significant first (log 12). -/
def natToBytes : Nat → Nat → List Byte
  | 0, _ => []
  | k + 1, n => BitVec.ofNat 8 n :: natToBytes k (n / 256)

/-- Decode a sequence of bytes as a word of a format: total, rejecting by name a wrong number of bytes and a bit set
above the format's width. -/
def decodeBytes (f : Format) (bs : List Byte) : Except DecodeReject Instr :=
  if bs.length ≠ formatBytes f then .error .wrongLength
  else if 2 ^ formatBits f ≤ bytesToNat bs then .error .excessBits
  else .ok (decode (codeOfNat f (bytesToNat bs)))

/-- The bits of the instruction's word, written from the same tables as the decoder (R70, R71, R76, R77). -/
def encode : Instr → Code
  | .nop operand => .cmd (0b00#2 ++ operand)
  | .setkey key => .cmd (0b01#2 ++ key)
  | .encrypt block => .cmd (0b10#2 ++ block)
  | .decrypt block => .cmd (0b11#2 ++ block)
  | .stepWait dir rnd => .seq (0b00#2 ++ BitVec.ofBool dir ++ rnd)
  | .stepRoundEnc rnd => .seq (0b010#3 ++ rnd)
  | .stepRoundDec rnd => .seq (0b011#3 ++ rnd)
  | .stepFinal dir rnd => .seq (0b10#2 ++ BitVec.ofBool dir ++ rnd)
  | .stepRespond dir rnd => .seq (0b11#2 ++ BitVec.ofBool dir ++ rnd)
  | .applyIp => .pu 0b000#3
  | .applyFp => .pu 0b001#3
  | .applyPc1 => .pu 0b010#3
  | .applyPc2 => .pu 0b011#3
  | .applyE => .pu 0b100#3
  | .applyS => .pu 0b101#3
  | .applyP => .pu 0b110#3
  | .rsh => .pu 0b111#3

/-- The format a word belongs to. -/
def codeFormat : Code → Format
  | .cmd _ => .cmd66
  | .seq _ => .seq7
  | .pu _ => .pu3

/-- The bits of a word as a number, bit 0 least significant. -/
def codeNat : Code → Nat
  | .cmd w => w.toNat
  | .seq w => w.toNat
  | .pu w => w.toNat

/-- The bytes of an instruction's word, the first least significant. -/
def encodeBytes (i : Instr) : List Byte :=
  natToBytes (formatBytes (codeFormat (encode i))) (codeNat (encode i))

/-- The format the host means by a number of bits, and by the word where the number does not tell (log 12): 66 bits or
nine bytes is a command, 7 bits a step, 3 bits a unit operation. One whole byte may be either of the last two: DESIGN
CHOICE, a word below 8 is a bank selector and any other a step selector. -/
def tableFormat (nbits w : Nat) : Option Format :=
  if nbits = 66 ∨ nbits = 72 then some .cmd66
  else if nbits = 7 then some .seq7
  else if nbits = 3 then some .pu3
  else if nbits = 8 then (if w < 8 then some .pu3 else some .seq7)
  else none

/-- The host's question of the decoder: the instruction read from a word `w` of a row of `nbits` bits, laid out as
bytes (log 12). -/
def decodeTableWord (nbits w : Nat) : Option Instr :=
  match tableFormat nbits w with
  | none => none
  | some f =>
    if 256 ^ formatBytes f ≤ w then none
    else match decodeBytes f (natToBytes (formatBytes f) w) with
      | .ok i => some i
      | .error _ => none

end Sys2Proof
end

