-- ==== Sys2Proof/Machine/Commands.lean ====
section
/-! DEFINITION. The four commands (R141 to R146). `NOP` and `SETKEY` take one step; `ENCRYPT` and `DECRYPT` are their
accept steps `ACCEPT.ENC` and `ACCEPT.DEC`, which share the command's encoding (R79), and the sequencer goes on from
there. Each is written for any configuration, then for the installed one. -/

namespace Sys2Proof.Machine

/-- `NOP`: no register is written, the operand is ignored (R144). -/
def nopWith (_c : Cfg) (_operand : Block) (s : State) : Out := whenReady s s

/-- `SETKEY key`: `KEYREG <- Apply(ROM_PC1, key)`, `KV <- 1`, `PH` stays IDLE (R141). -/
def setkeyWith (c : Cfg) (key : MasterKey) (s : State) : Out :=
  whenReady s { s with keyreg := selectPc1 c key, kv := true }

/-- `ENCRYPT block`, its step `ACCEPT.ENC` (R142, R145). -/
def encryptWith (c : Cfg) (block : Block) (s : State) : Out :=
  whenReady s (startBlock false (encStart c (keyRead s) block) s)

/-- `DECRYPT block`, its step `ACCEPT.DEC` (R143, R146). -/
def decryptWith (c : Cfg) (block : Block) (s : State) : Out :=
  whenReady s (startBlock true (decStart c (keyRead s) block) s)

/-- Accept the command `op ‖ operand` (R71, R140). -/
def acceptWith (c : Cfg) (op : BitVec 2) (operand : Block) (s : State) : Out :=
  if op = 0b00#2 then nopWith c operand s
  else if op = 0b01#2 then setkeyWith c operand s
  else if op = 0b10#2 then encryptWith c operand s
  else decryptWith c operand s

/-- The meaning of `NOP`. -/
def execNop (operand : Block) (s : State) : Out := nopWith installed operand s

/-- The meaning of `SETKEY`. -/
def execSetkey (key : MasterKey) (s : State) : Out := setkeyWith installed key s

/-- The meaning of `ENCRYPT`. -/
def execEncrypt (block : Block) (s : State) : Out := encryptWith installed block s

/-- The meaning of `DECRYPT`. -/
def execDecrypt (block : Block) (s : State) : Out := decryptWith installed block s

end Sys2Proof.Machine
end

