-- ==== Sys2Proof/Machine/Sequencer.lean ====
section
/-! DEFINITION. The five sequencer steps (R140, R147 to R150), with the transitions of rule R152. A step run where the
selector does not name it is refused (log 10); bits of the selector that a step does not read are don't-care (R76). -/

namespace Sys2Proof.Machine

/-- `STEP.WAIT`: the accept of the offered command, or nothing (R76, R140, R152). -/
def stepWaitWith (c : Cfg) (_dir : Bool) (_rnd : RoundIdx) (s : State) : Out :=
  if s.ph = .idle then
    if acceptEvent s then acceptWith c (inputs s).cmdOp (inputs s).cmdData s else .next s
  else .refused .notSelected

/-- `STEP.ROUND.ENC` with `r = RND` (R147). -/
def stepRoundEncWith (c : Cfg) (rnd : RoundIdx) (s : State) : Out :=
  whenSelected (s.ph == .round && s.dir == false && s.rnd == rnd) (advanceRound (encRound c rnd.toNat s.work) s)

/-- `STEP.ROUND.DEC` with `r = RND` (R148). -/
def stepRoundDecWith (c : Cfg) (rnd : RoundIdx) (s : State) : Out :=
  whenSelected (s.ph == .round && s.dir == true && s.rnd == rnd) (advanceRound (decRound c rnd.toNat s.work) s)

/-- `STEP.FINAL`: `DOUT <- Apply(ROM_FP, R ‖ L)`, `PH <- RESP` (R149, R151). -/
def stepFinalWith (c : Cfg) (_dir : Bool) (_rnd : RoundIdx) (s : State) : Out :=
  whenSelected (s.ph == .final) { s with dout := finalBlock c s.work, ph := .resp }

/-- `STEP.RESPOND`: with `rsp_ready = 1` the host receives `DOUT` and `PH <- IDLE`; else the engine waits in RESP
(R150, R152, R196; log 11). -/
def stepRespondWith (_c : Cfg) (_dir : Bool) (_rnd : RoundIdx) (s : State) : Out :=
  whenSelected (s.ph == .resp)
    (if respondEvent s then { s with taken := s.taken ++ [rspData s], ph := .idle } else s)

/-- The meaning of `STEP.WAIT`. -/
def execStepWait (dir : Bool) (rnd : RoundIdx) (s : State) : Out := stepWaitWith installed dir rnd s

/-- The meaning of `STEP.ROUND.ENC`. -/
def execStepRoundEnc (rnd : RoundIdx) (s : State) : Out := stepRoundEncWith installed rnd s

/-- The meaning of `STEP.ROUND.DEC`. -/
def execStepRoundDec (rnd : RoundIdx) (s : State) : Out := stepRoundDecWith installed rnd s

/-- The meaning of `STEP.FINAL`. -/
def execStepFinal (dir : Bool) (rnd : RoundIdx) (s : State) : Out := stepFinalWith installed dir rnd s

/-- The meaning of `STEP.RESPOND`. -/
def execStepRespond (dir : Bool) (rnd : RoundIdx) (s : State) : Out := stepRespondWith installed dir rnd s

end Sys2Proof.Machine
end

