-- ==== Sys2Proof/Machine/Dispatch.lean ====
section
/-! DEFINITION. The meaning of each instruction: one arm for each constructor of `Instr`. -/

namespace Sys2Proof.Machine

def exec (i : Instr) (s : State) : Host.Outcome State Fault Refusal :=
  match i with
  | .nop operand => Sys2Proof.Machine.execNop operand s
  | .setkey key => Sys2Proof.Machine.execSetkey key s
  | .encrypt block => Sys2Proof.Machine.execEncrypt block s
  | .decrypt block => Sys2Proof.Machine.execDecrypt block s
  | .stepWait dir rnd => Sys2Proof.Machine.execStepWait dir rnd s
  | .stepRoundEnc rnd => Sys2Proof.Machine.execStepRoundEnc rnd s
  | .stepRoundDec rnd => Sys2Proof.Machine.execStepRoundDec rnd s
  | .stepFinal dir rnd => Sys2Proof.Machine.execStepFinal dir rnd s
  | .stepRespond dir rnd => Sys2Proof.Machine.execStepRespond dir rnd s
  | .applyIp => Sys2Proof.Machine.execApplyIp s
  | .applyFp => Sys2Proof.Machine.execApplyFp s
  | .applyPc1 => Sys2Proof.Machine.execApplyPc1 s
  | .applyPc2 => Sys2Proof.Machine.execApplyPc2 s
  | .applyE => Sys2Proof.Machine.execApplyE s
  | .applyS => Sys2Proof.Machine.execApplyS s
  | .applyP => Sys2Proof.Machine.execApplyP s
  | .rsh => Sys2Proof.Machine.execRsh s

end Sys2Proof.Machine
end

