-- ==== Sys2Proof/Machine/Fetch.lean ====
section
/-! DEFINITION. What the next step runs and what a step does around it: the step selector (R36, R76), the word that
names the next instruction, the reset edge that overrides everything (R152, R190), the end of a step, and the host's
placing of an instruction (log 11). -/

namespace Sys2Proof.Machine

/-- The 2-bit code of a phase (R25). -/
def phaseBits : Phase → BitVec 2
  | .idle => 0b00#2
  | .round => 0b01#2
  | .final => 0b10#2
  | .resp => 0b11#2

/-- The 7-bit step selector `PH ‖ DIR ‖ RND` (R76). -/
def selector (s : State) : BitVec 7 := phaseBits s.ph ++ BitVec.ofBool s.dir ++ s.rnd

/-- The word that names the next instruction: a unit operation presented alone (log 9), else the command word at an
accept event (R140), else the step selector (R76). -/
def fetchCode (s : State) : Code :=
  match s.unitSel with
  | some b => .pu b
  | none => if acceptEvent s then .cmd (commandWord s) else .seq (selector s)

/-- The next instruction. -/
def fetch (s : State) : Instr := decode (fetchCode s)

/-- The step is a reset edge: `rst = 1` at an edge of the sequencer (R190). -/
def resetAsserted (s : State) : Bool := s.unitSel.isNone && (inputs s).rst

/-- The end of a step that sampled the ports: the host goes on to its next levels, and the counter of the free values
advances (log 5, 6). -/
def tick (s : State) : State := { s with ports := s.ports.tail, draw := s.draw + 1 }

/-- The end of a step: a unit operation run alone is done and samples no port (log 9), any other step ticks. -/
def retire (s : State) : State :=
  match s.unitSel with
  | some _ => { s with unitSel := none }
  | none => tick s

/-- One step with the meanings `ex`: the reset edge, which overrides every transition (R152), or the next instruction. -/
def edge (ex : Instr → State → Out) (s : State) : Out :=
  if resetAsserted s then .next (tick (resetEdge s))
  else match ex (fetch s) s with
    | .next t => .next (retire t)
    | .fault f => .fault f
    | .refused r => .refused r

/-- The phase a 2-bit code stands for (R25). -/
def phaseOfBits (b : BitVec 2) : Phase :=
  if b = 0b00#2 then .idle else if b = 0b01#2 then .round else if b = 0b10#2 then .final else .resp

/-- Change the levels the host presents at the next step. -/
def withInputs (p : PortsIn) (s : State) : State := { s with ports := p :: s.ports.tail }

/-- Place a word where the next step takes it from (log 11): a command on the port of an idle engine, a selector in
`PH`, `DIR`, `RND` (with no command offered, and with the response taken, so that the selected step is run), a bank
number at the unit. -/
def placeCode (w : Code) (s : State) : State :=
  match w with
  | .cmd w => withInputs { inputs s with rst := false, cmdValid := true, cmdOp := w.extractLsb' 64 2, cmdData := w.extractLsb' 0 64 }
      { s with ph := .idle, unitSel := none }
  | .seq w => withInputs { inputs s with rst := false, cmdValid := false, rspReady := true }
      { s with ph := phaseOfBits (w.extractLsb' 5 2), dir := w.getLsbD 4, rnd := w.extractLsb' 0 4, unitSel := none }
  | .pu w => { s with unitSel := some w }

/-- Place the instruction of a word of the opcode table (log 11, 12); nothing where the decoder reads none. -/
def placeTableWord (nbits w : Nat) (s : State) : State :=
  match decodeTableWord nbits w with
  | none => s
  | some i => placeCode (encode i) s

end Sys2Proof.Machine
end

