-- ==== Sys2Proof/Machine/Step.lean ====
section
/-! DEFINITION. One step of the machine, and the host's placing of an instruction; both only call Machine/Fetch.lean. -/

namespace Sys2Proof.Machine

/-- One step: one rising edge of `clk` at which the sequencer moves (R31, R152), or one unit operation run alone. -/
def step (s : State) : Host.Outcome State Fault Refusal := edge exec s

/-- `s` with the instruction of an opcode-table word placed where the next step takes it from (log 11). -/
def State.withFetchWord (s : State) (nbits w : Nat) : State := placeTableWord nbits w s

end Sys2Proof.Machine
end

