-- ==== Sys2Proof/Machine/CommandLevel.lean ====
section
/-! DEFINITION. The command level (R10): each command as one transition from idle to idle with its response. The
functions Enc and Dec of rules R142 and R143, the subkeys each uses, and the two-operand operations (R159). It is a
second, shorter description of the engine; the machine is the sequencer level. -/

namespace Sys2Proof.Machine

/-- The working registers after the first `n` rounds of `ENCRYPT`, from those its accept step wrote (R142). -/
def encRounds (c : Cfg) : Nat → Work → Work
  | 0, w => w
  | n + 1, w => encRound c n (encRounds c n w)

/-- The working registers after the first `n` rounds of `DECRYPT`, from those its accept step wrote (R143). -/
def decRounds (c : Cfg) : Nat → Work → Work
  | 0, w => w
  | n + 1, w => decRound c n (decRounds c n w)

/-- `Enc(KEYREG, block)` (R142). -/
def encBlock (c : Cfg) (k : PermKey) (block : Block) : Block := finalBlock c (encRounds c 16 (encStart c k block))

/-- `Dec(KEYREG, block)` (R143). -/
def decBlock (c : Cfg) (k : PermKey) (block : Block) : Block := finalBlock c (decRounds c 16 (decStart c k block))

/-- `encrypt(masterKey, block)` of the two-operand interface (R159). -/
def encryptTwo (c : Cfg) (key : MasterKey) (block : Block) : Block := encBlock c (selectPc1 c key) block

/-- `decrypt(masterKey, block)` of the two-operand interface (R159). -/
def decryptTwo (c : Cfg) (key : MasterKey) (block : Block) : Block := decBlock c (selectPc1 c key) block

/-- The key schedule alone, forward: the working registers after `KS.FWD(0)` to `KS.FWD(n - 1)` (R113). -/
def fwdSchedule (c : Cfg) : Nat → Work → Work
  | 0, w => w
  | n + 1, w => ksFwd c n (fwdSchedule c n w)

/-- The key schedule alone, reverse: the working registers after `KS.REV(0)` to `KS.REV(n - 1)` (R115). -/
def revSchedule (c : Cfg) : Nat → Work → Work
  | 0, w => w
  | n + 1, w => ksRev c n (revSchedule c n w)

/-- `EK(r)`: the subkey `ENCRYPT` uses in round `r` (R113, R118). -/
def encSubkey (c : Cfg) (k : PermKey) (r : Nat) : SubKey :=
  ksSubkey c (fwdSchedule c (r + 1) (ksLoad k 0))

/-- `DK(r)`: the subkey `DECRYPT` uses in structural round `r` (R115, R118). -/
def decSubkey (c : Cfg) (k : PermKey) (r : Nat) : SubKey :=
  ksSubkey c (revSchedule c (r + 1) (ksPrerot c (ksLoad k 0)))

/-- What the command level knows of the engine between two commands (R32): `KEYREG` and `KV`. -/
structure CmdState where
  keyreg : PermKey
  kv     : Bool
  deriving DecidableEq, Repr

/-- A command as one transition with its response (R10, R141 to R144). A block command has the precondition `KV = 1`
(R142); an instruction that is no command has no transition at this level. -/
def commandLevel (c : Cfg) (i : Instr) (s : CmdState) : Option (CmdState × Option Block) :=
  match i with
  | .nop _ => some (s, none)
  | .setkey key => some (⟨selectPc1 c key, true⟩, none)
  | .encrypt block => if s.kv then some (s, some (encBlock c s.keyreg block)) else none
  | .decrypt block => if s.kv then some (s, some (decBlock c s.keyreg block)) else none
  | .stepWait _ _ => none
  | .stepRoundEnc _ => none
  | .stepRoundDec _ => none
  | .stepFinal _ _ => none
  | .stepRespond _ _ => none
  | .applyIp => none
  | .applyFp => none
  | .applyPc1 => none
  | .applyPc2 => none
  | .applyE => none
  | .applyS => none
  | .applyP => none
  | .rsh => none

end Sys2Proof.Machine
end

