-- ==== Sys2Proof/Machine/Configured.lean ====
section
/-! DEFINITION. The machine for any ROM configuration (R6): the same meanings as `exec` and the same step, with the
configuration an argument. The modelled engine is the one at `installed`. -/

namespace Sys2Proof.Machine

/-- The meaning of an instruction under a configuration. -/
def execWith (c : Cfg) (i : Instr) (s : State) : Out :=
  match i with
  | .nop operand => nopWith c operand s
  | .setkey key => setkeyWith c key s
  | .encrypt block => encryptWith c block s
  | .decrypt block => decryptWith c block s
  | .stepWait dir rnd => stepWaitWith c dir rnd s
  | .stepRoundEnc rnd => stepRoundEncWith c rnd s
  | .stepRoundDec rnd => stepRoundDecWith c rnd s
  | .stepFinal dir rnd => stepFinalWith c dir rnd s
  | .stepRespond dir rnd => stepRespondWith c dir rnd s
  | .applyIp => applyIpWith c s
  | .applyFp => applyFpWith c s
  | .applyPc1 => applyPc1With c s
  | .applyPc2 => applyPc2With c s
  | .applyE => applyEWith c s
  | .applyS => applySWith c s
  | .applyP => applyPWith c s
  | .rsh => rshWith c s

/-- One step under a configuration. -/
def stepWith (c : Cfg) (s : State) : Out := edge (execWith c) s

/-- `n` steps under a configuration, stopping where a step gives no next state. -/
def stepsWith (c : Cfg) : Nat → State → Out
  | 0, s => .next s
  | n + 1, s =>
    match stepWith c s with
    | .next t => stepsWith c n t
    | .fault f => .fault f
    | .refused r => .refused r

end Sys2Proof.Machine
end

