-- ==== Sys2Proof/Machine/Program.lean ====
section
/-! DEFINITION. The host's programs (R80), the pseudo-commands (R81, R159), the levels the host of rule R80 drives for
each line without a pause, and a program at both levels (R10, R160). Nothing here is state of the engine. -/

namespace Sys2Proof.Machine

/-- An operand of a program line: a 64-bit literal, or `$n`, the n-th response taken so far, from 0 (R80). -/
inductive LineOperand where
  | lit (v : Block)
  | resp (n : Nat)
  deriving DecidableEq, Repr

/-- A line of a program (R80). -/
inductive CoreLine where
  | nop
  | setkey (v : LineOperand)
  | encrypt (v : LineOperand)
  | decrypt (v : LineOperand)
  deriving DecidableEq, Repr

/-- A line as written: a core line or a pseudo-command (R81). -/
inductive SourceLine where
  | core (l : CoreLine)
  | encryptk (k b : LineOperand)
  | decryptk (k b : LineOperand)
  deriving DecidableEq, Repr

/-- The expansion of a line (R81). -/
def expandLine : SourceLine → List CoreLine
  | .core l => [l]
  | .encryptk k b => [.setkey k, .encrypt b]
  | .decryptk k b => [.setkey k, .decrypt b]

/-- The program the host runs for a program as written (R81). -/
def expandProgram (ls : List SourceLine) : List CoreLine := ls.flatMap expandLine

/-- The value of an operand after the responses `taken` (R80); none where `$n` names a response not yet taken. -/
def lineValue (taken : List Block) : LineOperand → Option Block
  | .lit v => some v
  | .resp n => taken[n]?

/-- The command of a line (R80): `NOP` has operand 0. -/
def lineCommand (taken : List Block) : CoreLine → Option Instr
  | .nop => some (.nop 0)
  | .setkey v => (lineValue taken v).map .setkey
  | .encrypt v => (lineValue taken v).map .encrypt
  | .decrypt v => (lineValue taken v).map .decrypt

/-- An operand names only responses among the first `n` (R80; log 16). -/
def operandOk (n : Nat) : LineOperand → Bool
  | .lit _ => true
  | .resp k => k < n

/-- A program is well formed after `n` responses: every `$k` names a response already taken (R80; log 16). -/
def programOk : Nat → List CoreLine → Bool
  | _, [] => true
  | n, .nop :: ls => programOk n ls
  | n, .setkey v :: ls => operandOk n v && programOk n ls
  | n, .encrypt v :: ls => operandOk n v && programOk (n + 1) ls
  | n, .decrypt v :: ls => operandOk n v && programOk (n + 1) ls

/-- A run of a program at the command level (R10, R160): the final `KEYREG` and `KV` and the responses in order. -/
def runCommands (c : Cfg) : List CoreLine → CmdState → List Block → Option (CmdState × List Block)
  | [], s, taken => some (s, taken)
  | l :: ls, s, taken =>
    match lineCommand taken l with
    | none => none
    | some i =>
      match commandLevel c i s with
      | none => none
      | some (t, none) => runCommands c ls t taken
      | some (t, some b) => runCommands c ls t (taken ++ [b])

/-- The levels of a host that offers a command (R140). -/
def offer (op : BitVec 2) (operand : Block) : PortsIn := ⟨false, true, op, operand, false⟩

/-- The levels of a host that takes a response (R150). -/
def takeResponse : PortsIn := { PortsIn.quiet with rspReady := true }

/-- The levels after the accept of a block command: quiet for sixteen rounds and the final step, then the response is
taken (R80, R152). -/
def blockTail : List PortsIn := List.replicate 17 PortsIn.quiet ++ [takeResponse]

/-- The levels the host of rule R80 drives for one command, one entry for each sequencer step (R152): one step for
`NOP` and `SETKEY`, nineteen for `ENCRYPT` and `DECRYPT`; nothing for an instruction the host does not offer. -/
def edgesFor : Instr → List PortsIn
  | .nop d => [offer 0b00#2 d]
  | .setkey d => [offer 0b01#2 d]
  | .encrypt d => offer 0b10#2 d :: blockTail
  | .decrypt d => offer 0b11#2 d :: blockTail
  | .stepWait _ _ => []
  | .stepRoundEnc _ => []
  | .stepRoundDec _ => []
  | .stepFinal _ _ => []
  | .stepRespond _ _ => []
  | .applyIp => []
  | .applyFp => []
  | .applyPc1 => []
  | .applyPc2 => []
  | .applyE => []
  | .applyS => []
  | .applyP => []
  | .rsh => []

/-- The host drives one line: it presents the levels of the line's command, and the machine takes the command's
steps. -/
def driveLine (c : Cfg) (l : CoreLine) (s : State) : Option State :=
  match lineCommand s.taken l with
  | none => none
  | some i => nextOf (stepsWith c (edgesFor i).length { s with ports := edgesFor i })

/-- A program driven through the sequencer without a pause (R80); a run with a host that takes its time is in
Machine/Run.lean. -/
def driveProgram (c : Cfg) : List CoreLine → State → Option State
  | [], s => some s
  | l :: ls, s =>
    match driveLine c l s with
    | none => none
    | some t => driveProgram c ls t

end Sys2Proof.Machine
end

