-- ==== Sys2Proof/Machine/Assembler.lean ====
section
/-! DEFINITION. The program syntax of rule R80: one command a line, `;` starts a comment, literals decimal or `0x`
hexadecimal, `$n` for a response; with the pseudo-commands of rule R81. The spec does not fix spaces, letter case, the
separator's place, lines that hold no command, where a line ends or what an ill-formed line makes of its program: DESIGN
CHOICE (log 16). -/

namespace Sys2Proof.Machine

/-- The value of a digit in base 16, either letter case (DESIGN CHOICE, log 16). -/
def digitValue (c : Char) : Option Nat :=
  if '0' ≤ c ∧ c ≤ '9' then some (c.toNat - 48)
  else if 'a' ≤ c ∧ c ≤ 'f' then some (c.toNat - 87)
  else if 'A' ≤ c ∧ c ≤ 'F' then some (c.toNat - 55)
  else none

/-- The number a run of digits stands for in a base, from an accumulator; none at a digit out of the base. -/
def digitsValue (base : Nat) : Nat → List Char → Option Nat
  | acc, [] => some acc
  | acc, c :: cs =>
    match digitValue c with
    | none => none
    | some d => if d < base then digitsValue base (acc * base + d) cs else none

/-- A number: decimal, or `0x` and hexadecimal digits (R80); leading zeros are allowed (DESIGN CHOICE, log 16). -/
def numberValue : List Char → Option Nat
  | [] => none
  | '0' :: 'x' :: c :: cs => digitsValue 16 0 (c :: cs)
  | c :: cs => digitsValue 10 0 (c :: cs)

/-- An operand: a 64-bit literal, or `$` and a response's number (R80). The number is decimal, and a literal that does not
fit in 64 bits is an error (DESIGN CHOICE, log 16). -/
def parseOperand : List Char → Option LineOperand
  | '$' :: cs =>
    match cs with
    | [] => none
    | d :: ds => (digitsValue 10 0 (d :: ds)).map .resp
  | cs =>
    match numberValue cs with
    | none => none
    | some n => if n < 2 ^ 64 then some (.lit (BitVec.ofNat 64 n)) else none

/-- A line up to its comment (R80). -/
def beforeComment : List Char → List Char
  | [] => []
  | c :: cs => if c = ';' then [] else c :: beforeComment cs

/-- The words of a line, separated by any run of spaces, tabs and commas (DESIGN CHOICE, log 16); the last argument is the
word being read, reversed. -/
def lineWords : List Char → List Char → List (List Char)
  | [], [] => []
  | [], w => [w.reverse]
  | c :: cs, w =>
    if c = ' ' ∨ c = '\t' ∨ c = ',' then
      (match w with
        | [] => lineWords cs []
        | x :: xs => (x :: xs).reverse :: lineWords cs [])
    else lineWords cs (c :: w)

/-- A mnemonic, in capitals, and its operands, as many as it has, as a line of a program (R80, R81; log 16). -/
def lineOf (mnemonic : List Char) (operands : List LineOperand) : Option SourceLine :=
  match operands with
  | [] => if mnemonic = ['N', 'O', 'P'] then some (.core .nop) else none
  | [v] =>
    if mnemonic = ['S', 'E', 'T', 'K', 'E', 'Y'] then some (.core (.setkey v))
    else if mnemonic = ['E', 'N', 'C', 'R', 'Y', 'P', 'T'] then some (.core (.encrypt v))
    else if mnemonic = ['D', 'E', 'C', 'R', 'Y', 'P', 'T'] then some (.core (.decrypt v))
    else none
  | [k, b] =>
    if mnemonic = ['E', 'N', 'C', 'R', 'Y', 'P', 'T', 'K'] then some (.encryptk k b)
    else if mnemonic = ['D', 'E', 'C', 'R', 'Y', 'P', 'T', 'K'] then some (.decryptk k b)
    else none
  | _ :: _ :: _ :: _ => none

/-- The values of all operands, if each has one. -/
def parseOperands : List (List Char) → Option (List LineOperand)
  | [] => some []
  | w :: ws =>
    match parseOperand w, parseOperands ws with
    | some v, some vs => some (v :: vs)
    | _, _ => none

/-- One line: one command (R80), an error, or no command. R80 has one command on each line and does not speak of a line
that is blank or holds a comment only: that such a line is allowed and stands for no command is a DESIGN CHOICE (log
16). -/
def parseLine (cs : List Char) : Option (List SourceLine) :=
  match lineWords (beforeComment cs) [] with
  | [] => some []
  | m :: ws =>
    match parseOperands ws with
    | none => none
    | some vs => (lineOf m vs).map fun l => [l]

/-- The lines of a text, each ended by a newline or the end of the text (DESIGN CHOICE, log 16); the last argument is the
line being read, reversed. -/
def textLines : List Char → List Char → List (List Char)
  | [], w => [w.reverse]
  | c :: cs, w => if c = '\n' then w.reverse :: textLines cs [] else textLines cs (c :: w)

/-- The program of a list of lines; none if a line has an error (DESIGN CHOICE, log 16). -/
def parseLines : List (List Char) → Option (List SourceLine)
  | [] => some []
  | l :: ls =>
    match parseLine l, parseLines ls with
    | some a, some b => some (a ++ b)
    | _, _ => none

/-- The program a text stands for (R80), if every line is well formed. -/
def parseProgram (text : String) : Option (List SourceLine) := parseLines (textLines text.toList [])

end Sys2Proof.Machine
end

