-- ==== Sys2Proof/Machine/Protocol.lean ====
section
/-! DEFINITION. The three things a host can do wrong, as the spec's model treats them (R178, model column; R22, R194,
R196): the joint step of host and engine that is refused, has no move or is stuck where the hardware, which is `step`,
goes on. Nothing here restricts `step` (logs 3, 11, 15). -/

namespace Sys2Proof.Machine

/-- The engine with what its host owes it: the command word offered at an earlier edge and not yet accepted, which the
host must keep (R162, R194). -/
structure Joint where
  engine : State
  owed   : Option (BitVec 66)
  deriving DecidableEq, Repr

/-- What the spec's model answers to one step of host and engine. -/
inductive ModelAnswer where
  /-- The host kept its duties: the engine's step, and what the host owes after it. -/
  | next (j : Joint)
  /-- A block command would be accepted while `KV = 0` (R22, R178 row 1; 93 U7). -/
  | refused
  /-- The host changed or withdrew a command not yet accepted (R194, R178 row 2). -/
  | noMove
  /-- The response in RESP is never taken (R196, R178 row 3; 93 U14). -/
  | stuck
  deriving DecidableEq, Repr

/-- The levels keep an owed command: `cmd_valid`, `cmd_op` and `cmd_data` unchanged (R194). -/
def keepsWord (owed : Option (BitVec 66)) (p : PortsIn) : Bool :=
  match owed with
  | none => true
  | some w => p.cmdValid && p.cmdOp ++ p.cmdData == w

/-- The word the host owes after the edge: the one it offers there, if that is not accepted (R140, R194). -/
def owedAfter (s : State) : Option (BitVec 66) :=
  if (inputs s).cmdValid && !cmdReady s then some (commandWord s) else none

/-- `ENCRYPT` or `DECRYPT` is accepted while `KV = 0` (R22, R192): the opcodes with their upper bit set (R71). -/
def acceptsWithoutKey (s : State) : Bool := acceptEvent s && (inputs s).cmdOp.getLsbD 1 && !s.kv

/-- The response is never taken, nor lost by a reset, in all that the host still does (R150, R191, R196; log 6). -/
def neverTaken (s : State) : Bool := rspValid s && s.ports.all fun p => !p.rspReady && !p.rst

/-- The engine's own step, with what the host owes after it. -/
def engineMoves (c : Cfg) (s : State) (owed : Option (BitVec 66)) : ModelAnswer :=
  match nextOf (stepWith c s) with
  | some t => .next ⟨t, owed⟩
  | none => .noMove

/-- One step of host and engine in the spec's model (R178). A unit operation run alone samples no port (log 9). -/
def modelStep (c : Cfg) (g : Joint) : ModelAnswer :=
  if g.engine.unitSel.isSome then engineMoves c g.engine g.owed
  else if !keepsWord g.owed (inputs g.engine) then .noMove
  else if acceptsWithoutKey g.engine then .refused
  else if neverTaken g.engine then .stuck
  else engineMoves c g.engine (owedAfter g.engine)

end Sys2Proof.Machine
end

