-- ==== Sys2Proof/Machine/Run.lean ====
section
/-! DEFINITION. A run of a program (R160): the engine together with the host of rule R80, which offers its lines one
after the other and takes the responses, each as late as it likes (R162); when a run has ended, and its result. Nothing
here is state of the engine. -/

namespace Sys2Proof.Machine

/-- A run under way: the engine, the lines not yet accepted, and whether the host waits for the response of the block
command accepted last (R80, R160). -/
structure Run where
  engine   : State
  lines    : List CoreLine
  awaiting : Bool
  deriving DecidableEq, Repr

/-- What the host chooses at a step (R162): to offer its next line, if it may, and to be ready for a response. -/
structure HostMove where
  offers : Bool
  takes  : Bool
  deriving DecidableEq, Repr

/-- The levels that offer a command: its CMD66 word on the command port (R70); a word of another format has no port. -/
def offerOf (i : Instr) : PortsIn :=
  match encode i with
  | .cmd w => offer (w.extractLsb' 64 2) (w.extractLsb' 0 64)
  | .seq _ => PortsIn.quiet
  | .pu _ => PortsIn.quiet

/-- The line's command is a block command, which has a response (R161). -/
def CoreLine.responds : CoreLine → Bool
  | .nop => false
  | .setkey _ => false
  | .encrypt _ => true
  | .decrypt _ => true

/-- The command the host may offer: that of its next line, once it has the response of the line before (R80). -/
def nextCommand (r : Run) : Option Instr :=
  match r.awaiting, r.lines with
  | false, l :: _ => lineCommand r.engine.taken l
  | false, [] => none
  | true, _ => none

/-- The levels the host presents at a step (R80, R162); it asserts no reset, since R160 speaks of no such run. -/
def hostLevels (m : HostMove) (r : Run) : PortsIn :=
  match m.offers, nextCommand r with
  | true, some i => { offerOf i with rspReady := m.takes }
  | true, none => { PortsIn.quiet with rspReady := m.takes }
  | false, _ => { PortsIn.quiet with rspReady := m.takes }

/-- The engine with the host's levels on its ports. -/
def presented (m : HostMove) (r : Run) : State := { r.engine with ports := [hostLevels m r] }

/-- The respond event happens at this step (R150). -/
def respondsNow (s : State) : Bool := rspValid s && respondEvent s

/-- The lines not yet accepted, after a step that starts in `s` (R140). -/
def linesAfter (s : State) (r : Run) : List CoreLine := if acceptEvent s then r.lines.tail else r.lines

/-- The host waits for a response after a step that starts in `s`: from the accept of a block command to its respond
event (R140, R150). -/
def awaitingAfter (s : State) (r : Run) : Bool :=
  if acceptEvent s then (r.lines.head?.map CoreLine.responds).getD false else r.awaiting && !respondsNow s

/-- One step of a run: a step of the engine at the levels the host's choice presents. A run in which a block command
would be accepted while `KV = 0` has no step, since the spec's model refuses it (R22, R178). -/
def runStep (c : Cfg) (m : HostMove) (r : Run) : Option Run :=
  if acceptsWithoutKey (presented m r) then none
  else (nextOf (stepWith c (presented m r))).map fun t =>
    ⟨t, linesAfter (presented m r) r, awaitingAfter (presented m r) r⟩

/-- The steps of a run under the host's choices. -/
def runMoves (c : Cfg) : List HostMove → Run → Option Run
  | [], r => some r
  | m :: ms, r => (runStep c m r).bind (runMoves c ms)

/-- The start of a run of a program on an engine, which rule R160 takes in its reset state. -/
def runStart (s : State) (ls : List CoreLine) : Run := ⟨s, ls, false⟩

/-- A run has ended (R160): the host has had every line accepted and has taken every response, and `PH = IDLE`. -/
def runEnded (r : Run) : Bool := r.lines.isEmpty && !r.awaiting && r.engine.ph == .idle

/-- The result of a run (R160): the responses in order and the final `KEYREG` and `KV`; none while it has not ended. -/
def runResult (r : Run) : Option (List Block × PermKey × Bool) :=
  if runEnded r then some (r.engine.taken, r.engine.keyreg, r.engine.kv) else none

end Sys2Proof.Machine
end

