-- ==== Sys2Proof/Safety.lean ====
section
/-! DEFINITION. The terms claims are stated in: the invariants of the machine, the host's duties, runs of the machine's
own step, and two states that no later output can tell apart. -/

namespace Sys2Proof

open Machine

/-- The outcome is a next state: neither a fault nor a refusal. -/
def Safety.completes (o : Out) : Prop := ∃ t, o = .next t

/-- How many rounds of the command in progress are done. -/
def Safety.roundsDone (s : State) : Nat :=
  match s.ph with
  | .idle => 0
  | .round => s.rnd.toNat
  | .final => 16
  | .resp => 16

/-- By how many places in all the key halves stand rotated left after `n` rounds of a direction (R117): the running sum
of the first `n` amounts for `ENCRYPT`; for `DECRYPT` a whole turn of 28 less the amounts taken back. -/
def Safety.turned (dir : Bool) (n : Nat) : Nat :=
  if dir then 28 - (roundShift.drop (17 - n)).sum else (roundShift.take n).sum

/-- INVARIANT: while a command accepted with `KV = 1` is in progress, the key halves are the halves of `KEYREG` rotated
by what the rounds done amount to (R112 to R115, R117, R121, R157). -/
def Safety.keyHalvesFollow (s : State) : Prop :=
  s.kv = true → s.ph ≠ .idle →
    s.kh0 = rotl28 (firstKeyHalf s.keyreg) (turned s.dir (roundsDone s)) ∧
    s.kh1 = rotl28 (secondKeyHalf s.keyreg) (turned s.dir (roundsDone s))

/-- INVARIANT: after the last round `RND` is 15 (R26). -/
def Safety.roundIndexLeft (s : State) : Prop := s.ph = .final ∨ s.ph = .resp → s.rnd = 15#4

/-- INVARIANT: the result waiting in RESP is FP of the crossed halves (R149, R151). -/
def Safety.resultFollows (s : State) : Prop := s.ph = .resp → s.dout = finalBlock installed s.work

/-- The invariants of the machine together. -/
def Safety.inv (s : State) : Prop :=
  Safety.keyHalvesFollow s ∧ Safety.roundIndexLeft s ∧ Safety.resultFollows s

/-- The host obeys its duty at this step (R192): it offers no block command that would be accepted while `KV = 0`. -/
def Safety.hostDuty (s : State) : Bool := !acceptsWithoutKey s

/-- The host keeps an offered command unchanged until it is accepted (R194): if the command offered at a step is not
accepted at it, the next levels offer it again. The engine's step does not require it, and executes the word at the
accept edge; the spec's model, `modelStep`, has no move where it fails (log 15). -/
def Safety.hostStable (s : State) (next : PortsIn) : Bool := keepsWord (owedAfter s) next

/-- `n` steps of the machine, stopping where a step gives no next state. -/
def Safety.run : Nat → State → Out
  | 0, s => .next s
  | n + 1, s =>
    match step s with
    | .next t => Safety.run n t
    | .fault f => .fault f
    | .refused r => .refused r

/-- Two states that differ only in registers whose left-over values no output can show (R32): everything a phase may
still read is equal. While `KV = 0` that is not `KEYREG`, which only a host that breaks its duty then makes the engine
read (R192; log 3). -/
def Safety.sameView (s t : State) : Prop :=
  s.ph = t.ph ∧ s.kv = t.kv ∧ (s.kv = true → s.keyreg = t.keyreg) ∧ s.ports = t.ports ∧ s.taken = t.taken ∧
  s.draw = t.draw ∧ s.unitSel = t.unitSel ∧ s.unitIn = t.unitIn ∧ s.unitOut = t.unitOut ∧
  (s.ph = .round → s.work = t.work ∧ s.rnd = t.rnd ∧ s.dir = t.dir) ∧
  (s.ph = .final → s.l = t.l ∧ s.r = t.r) ∧
  (s.ph = .resp → s.dout = t.dout)

/-- Everything the engine shows at its ports (R30, R31). -/
def Safety.outputs (s : State) : Bool × Bool × Bool × Bool × Block :=
  (cmdReady s, busy s, keyValid s, rspValid s, rspData s)

/-- The host asserts no reset in any of the levels of a list (R190). -/
def Safety.noReset (ps : List PortsIn) : Prop := ∀ p ∈ ps, p.rst = false

end Sys2Proof
end

