-- ==== Sys2Proof/Certificates/Slice0/Obligations.lean ====
section
/-! DEFINITION. The statements for the provers, from the numbered rules of spec/. "Installed" is the configuration of
the modelled engine, whose tables are open (log 1); a statement over `c : Cfg` holds for every well-formed one. -/

open Sys2Proof Sys2Proof.Machine Sys2Proof.Safety

/-! ## Encodings -/

/-- Every instruction is read back from its word, and from its bytes (section 1 and 3 of 30_encoding). -/
def Obligations.DecodeReadsWhatEncodeWrites : Prop :=
  (∀ i : Instr, decode (encode i) = i) ∧
  (∀ i : Instr, decodeBytes (codeFormat (encode i)) (encodeBytes i) = .ok i)

/-- Every word of every format is the word of exactly one instruction, the one it decodes to. -/
def Obligations.EveryWordIsOneInstruction : Prop :=
  ∀ w : Code, encode (decode w) = w ∧ ∀ i : Instr, encode i = w → i = decode w

/-- Words written out from the spec's own patterns and programs decode to the instructions they stand for. -/
def Obligations.WordsOfTheSpecDecode : Prop :=
  decode (.cmd 0x0FFFFFFFFFFFFFFFF#66) = .nop 0xFFFFFFFFFFFFFFFF ∧
  decode (.cmd 0x10123456789ABCDEF#66) = .setkey 0x0123456789ABCDEF ∧
  decode (.cmd 0x200000000000004D2#66) = .encrypt 1234 ∧
  decode (.cmd 0x389B444A501E6035A#66) = .decrypt 0x89B444A501E6035A ∧
  decode (.seq 0b0010101#7) = .stepWait true 5 ∧ decode (.seq 0b0101110#7) = .stepRoundEnc 14 ∧
  decode (.seq 0b0110001#7) = .stepRoundDec 1 ∧ decode (.seq 0b1001111#7) = .stepFinal false 15 ∧
  decode (.seq 0b1111111#7) = .stepRespond true 15 ∧
  decode (.pu 0b011#3) = .applyPc2 ∧ decode (.pu 0b111#3) = .rsh

/-- R71: the opcode alone tells the command, and the operand is the 64 bits below it. -/
def Obligations.OpcodeTellsTheCommand : Prop :=
  ∀ d : Block,
    decode (.cmd (0b00#2 ++ d)) = .nop d ∧ decode (.cmd (0b01#2 ++ d)) = .setkey d ∧
    decode (.cmd (0b10#2 ++ d)) = .encrypt d ∧ decode (.cmd (0b11#2 ++ d)) = .decrypt d

/-- R76: the selector `PH ‖ DIR ‖ RND` names the step, and every 7-bit value is of exactly one of the five patterns. -/
def Obligations.SelectorNamesTheStep : Prop :=
  (∀ (d : Bool) (r : RoundIdx),
    decode (.seq (0b00#2 ++ BitVec.ofBool d ++ r)) = .stepWait d r ∧
    decode (.seq (0b01#2 ++ BitVec.ofBool d ++ r)) = (if d then .stepRoundDec r else .stepRoundEnc r) ∧
    decode (.seq (0b10#2 ++ BitVec.ofBool d ++ r)) = .stepFinal d r ∧
    decode (.seq (0b11#2 ++ BitVec.ofBool d ++ r)) = .stepRespond d r) ∧
  (∀ w : BitVec 7, ∃ (ph : BitVec 2) (d : Bool) (r : RoundIdx), w = ph ++ BitVec.ofBool d ++ r ∧
    ∀ (ph' : BitVec 2) (d' : Bool) (r' : RoundIdx), w = ph' ++ BitVec.ofBool d' ++ r' → ph' = ph ∧ d' = d ∧ r' = r)

/-- R77: the eight bank selectors and their operations; the operation of bank `b` is the one that reads bank `b`. -/
def Obligations.BankSelectorNamesTheOperation : Prop :=
  decode (.pu (bankNumber .ip)) = .applyIp ∧ decode (.pu (bankNumber .fp)) = .applyFp ∧
  decode (.pu (bankNumber .pc1)) = .applyPc1 ∧ decode (.pu (bankNumber .pc2)) = .applyPc2 ∧
  decode (.pu (bankNumber .e)) = .applyE ∧ decode (.pu (bankNumber .s)) = .applyS ∧
  decode (.pu (bankNumber .p)) = .applyP ∧ decode (.pu (bankNumber .roundShift)) = .rsh ∧
  (∀ b : Bank, bankOfNumber (bankNumber b) = b) ∧ (∀ n : BitVec 3, bankNumber (bankOfNumber n) = n)

/-- The model's byte decoder (log 12) rejects by name bytes that are not a word of the format. -/
def Obligations.BytesRejectedByName : Prop :=
  ∀ (f : Format) (bs : List Byte),
    (bs.length ≠ formatBytes f → decodeBytes f bs = .error .wrongLength) ∧
    (bs.length = formatBytes f → 2 ^ formatBits f ≤ bytesToNat bs → decodeBytes f bs = .error .excessBits) ∧
    (bs.length = formatBytes f → bytesToNat bs < 2 ^ formatBits f → ∃ i, decodeBytes f bs = .ok i)

/-! ## The step -/

/-- When the word that the next step takes decodes to `i` and no reset is asserted, the step is `exec i`, followed by
what ends a step: a unit operation presented alone is done (log 9); any other step samples the ports once and draws
once (log 5, 6). -/
def Obligations.StepRunsTheFetchedInstruction : Prop :=
  ∀ (s : State) (i : Instr), decode (fetchCode s) = i →
    (s.unitSel = none → (inputs s).rst = false → ∀ t, exec i s = .next t →
      step s = .next { t with ports := s.ports.tail, draw := s.draw + 1 }) ∧
    (s.unitSel.isSome = true → ∀ t, exec i s = .next t → step s = .next { t with unitSel := none })

/-- R140: a command is accepted exactly at an edge with `rst = 0`, `cmd_valid = 1` and the engine idle, and the step
then runs the command whose word is `cmd_op ‖ cmd_data`. -/
def Obligations.OfferedCommandIsAccepted : Prop :=
  (∀ s : State, acceptEvent s = true ↔
    (inputs s).rst = false ∧ (inputs s).cmdValid = true ∧ s.ph = .idle) ∧
  (∀ s : State, s.unitSel = none → acceptEvent s = true →
    ∃ t, exec (decode (.cmd ((inputs s).cmdOp ++ (inputs s).cmdData))) s = .next t ∧ step s = .next (tick t))

/-- R140: while a command is in progress nothing the host puts on the command port has any effect on the step. -/
def Obligations.CommandPortIgnoredWhileBusy : Prop :=
  ∀ (s : State) (valid : Bool) (op : BitVec 2) (d : Block), s.unitSel = none → s.ph ≠ .idle →
    step (withInputs { inputs s with cmdValid := valid, cmdOp := op, cmdData := d } s) =
      step (withInputs (inputs s) s)

/-- The model's reading of R140 at the level of one instruction (log 10): a command run where `cmd_ready = 0` changes
nothing. -/
def Obligations.UnreadyCommandChangesNothing : Prop :=
  ∀ (s : State) (d : Block), cmdReady s = false →
    exec (.nop d) s = .next s ∧ exec (.setkey d) s = .next s ∧ exec (.encrypt d) s = .next s ∧
    exec (.decrypt d) s = .next s

/-- R152: every transition of the sequencer, by phase and by what the host presents, when no reset is asserted. -/
def Obligations.TransitionsOfTheSequencer : Prop :=
  ∀ s : State, s.unitSel = none → (inputs s).rst = false → ∃ t, step s = .next t ∧
    (s.ph = .idle → (inputs s).cmdValid = false → t.ph = .idle ∧ t.rnd = s.rnd) ∧
    (s.ph = .idle → (inputs s).cmdValid = true → (inputs s).cmdOp = 0b00#2 → t.ph = .idle ∧ t.rnd = s.rnd) ∧
    (s.ph = .idle → (inputs s).cmdValid = true → (inputs s).cmdOp = 0b01#2 → t.ph = .idle ∧ t.rnd = s.rnd) ∧
    (s.ph = .idle → (inputs s).cmdValid = true → (inputs s).cmdOp = 0b10#2 →
      t.ph = .round ∧ t.rnd = 0#4 ∧ t.dir = false) ∧
    (s.ph = .idle → (inputs s).cmdValid = true → (inputs s).cmdOp = 0b11#2 →
      t.ph = .round ∧ t.rnd = 0#4 ∧ t.dir = true) ∧
    (s.ph = .round → s.rnd < 15#4 → t.ph = .round ∧ t.rnd = s.rnd + 1#4 ∧ t.dir = s.dir) ∧
    (s.ph = .round → s.rnd = 15#4 → t.ph = .final ∧ t.rnd = 15#4 ∧ t.dir = s.dir) ∧
    (s.ph = .final → t.ph = .resp ∧ t.rnd = s.rnd) ∧
    (s.ph = .resp → (inputs s).rspReady = false → t.ph = .resp ∧ t.rnd = s.rnd) ∧
    (s.ph = .resp → (inputs s).rspReady = true → t.ph = .idle ∧ t.rnd = s.rnd)

/-- No step of the machine faults or is refused, whatever the state and the host (R170, R152). Two cases are the
model's choice. A block command accepted while `KV = 0` has a next state, with a free key (log 3), where R158, R22 and
R178 name the model's refusal of it as the one exception. And a response that is not taken is a step to the same
registers (log 11), as in R152's table, where R196, R178 and 93 U14 call that wait stuck in the model. The spec's model,
which refuses the one and is stuck at the other, is `modelStep` (HostViolationsInTheModel). -/
def Obligations.EveryStepCompletes : Prop := ∀ s : State, completes (step s)

/-- Reset (R190, R191): at an edge with `rst = 1`, in any phase, `PH` becomes IDLE and `KV` becomes 0 and nothing else
is written (that the other registers keep their values is log 14), no command is accepted, no response is taken, and
`rsp_valid` is 0 from the edge on. -/
def Obligations.ResetAbandonsTheCommand : Prop :=
  ∀ s : State, s.unitSel = none → (inputs s).rst = true →
    cmdReady s = false ∧
    step s = .next { s with ph := .idle, kv := false, ports := s.ports.tail, draw := s.draw + 1 } ∧
    ∀ t, step s = .next t → rspValid t = false ∧ keyValid t = false ∧ busy t = false ∧ t.taken = s.taken

/-- What reset leaves (R38): `PH` IDLE, `KV` 0, and so the outputs; whatever the other registers hold. -/
def Obligations.ResetValues : Prop :=
  State.reset.ph = .idle ∧ State.reset.kv = false ∧
  (∀ s : State, s.ph = .idle → s.kv = false → (inputs s).rst = false →
    cmdReady s = true ∧ busy s = false ∧ keyValid s = false ∧ rspValid s = false)

/-- R30: the status outputs as functions of the state. -/
def Obligations.StatusOutputs : Prop :=
  ∀ s : State,
    (busy s = true ↔ s.ph ≠ .idle) ∧ (keyValid s = true ↔ s.kv = true) ∧ (rspValid s = true ↔ s.ph = .resp) ∧
    (cmdReady s = true ↔ s.ph = .idle ∧ (inputs s).rst = false)

/-! ## The commands -/

/-- R141: `SETKEY key` at an accept event writes `KEYREG` and `KV` and nothing else. -/
def Obligations.SetkeyStoresThePermutedKey : Prop :=
  ∀ (s : State) (key : MasterKey), s.ph = .idle → (inputs s).rst = false →
    exec (.setkey key) s = .next { s with keyreg := applyTable 56 installed.rom.pc1 key, kv := true }

/-- R144: `NOP` writes nothing, whatever its operand. -/
def Obligations.NopDoesNothing : Prop :=
  ∀ (s : State) (operand : Block), exec (.nop operand) s = .next s

/-- R145: `ACCEPT.ENC`, the first step of `ENCRYPT`, with `KV = 1`. -/
def Obligations.EncryptAcceptWrites : Prop :=
  ∀ (s : State) (block : Block), s.ph = .idle → (inputs s).rst = false → s.kv = true →
    exec (.encrypt block) s = .next { s with
      l := (applyTable 64 installed.rom.ip block).extractLsb' 32 32
      r := (applyTable 64 installed.rom.ip block).extractLsb' 0 32
      kh0 := s.keyreg.extractLsb' 28 28
      kh1 := s.keyreg.extractLsb' 0 28
      dir := false, rnd := 0#4, ph := .round }

/-- R146: `ACCEPT.DEC`, the first step of `DECRYPT`, with `KV = 1`: the pre-rotated halves, which equal the loaded
ones. -/
def Obligations.DecryptAcceptWrites : Prop :=
  ∀ (s : State) (block : Block), s.ph = .idle → (inputs s).rst = false → s.kv = true →
    exec (.decrypt block) s = .next { s with
      l := (applyTable 64 installed.rom.ip block).extractLsb' 32 32
      r := (applyTable 64 installed.rom.ip block).extractLsb' 0 32
      kh0 := (ksPrerot installed (ksLoad s.keyreg block)).kh0
      kh1 := (ksPrerot installed (ksLoad s.keyreg block)).kh1
      dir := true, rnd := 0#4, ph := .round } ∧
    (ksPrerot installed (ksLoad s.keyreg block)).kh0 = s.keyreg.extractLsb' 28 28 ∧
    (ksPrerot installed (ksLoad s.keyreg block)).kh1 = s.keyreg.extractLsb' 0 28

/-- R178's hardware column, in the form of log 3: a block command accepted while `KV = 0` runs, and the key it takes is a
free value that depends on what `KEYREG` holds, since the spec leaves that unspecified. -/
def Obligations.BlockCommandBeforeAnyKeyRuns : Prop :=
  ∀ (s : State) (block : Block), s.ph = .idle → (inputs s).rst = false → s.kv = false →
    exec (.encrypt block) s = .next { s with
      l := (applyTable 64 installed.rom.ip block).extractLsb' 32 32
      r := (applyTable 64 installed.rom.ip block).extractLsb' 0 32
      kh0 := (Config.unsetKey s.draw s.keyreg).extractLsb' 28 28
      kh1 := (Config.unsetKey s.draw s.keyreg).extractLsb' 0 28
      dir := false, rnd := 0#4, ph := .round } ∧
    exec (.decrypt block) s = .next { s with
      l := (applyTable 64 installed.rom.ip block).extractLsb' 32 32
      r := (applyTable 64 installed.rom.ip block).extractLsb' 0 32
      kh0 := (Config.unsetKey s.draw s.keyreg).extractLsb' 28 28
      kh1 := (Config.unsetKey s.draw s.keyreg).extractLsb' 0 28
      dir := true, rnd := 0#4, ph := .round }

/-- Frame of `NOP` and `SETKEY` (R37): what a next state leaves unchanged. -/
def Obligations.NopAndSetkeyFrame : Prop :=
  (∀ (s t : State) (d : Block), exec (.nop d) s = .next t → t = s) ∧
  (∀ (s t : State) (key : MasterKey), exec (.setkey key) s = .next t →
    t.kh0 = s.kh0 ∧ t.kh1 = s.kh1 ∧ t.l = s.l ∧ t.r = s.r ∧ t.ph = s.ph ∧ t.rnd = s.rnd ∧ t.dir = s.dir ∧
    t.dout = s.dout ∧ t.ports = s.ports ∧ t.taken = s.taken ∧ t.draw = s.draw ∧ t.unitSel = s.unitSel ∧
    t.unitIn = s.unitIn ∧ t.unitOut = s.unitOut)

/-- Frame of `ENCRYPT` and `DECRYPT` at their accept step (R37): they do not write `KEYREG`, `KV` or `DOUT`. -/
def Obligations.BlockAcceptFrame : Prop :=
  ∀ (i : Instr) (s t : State) (block : Block), i = .encrypt block ∨ i = .decrypt block → exec i s = .next t →
    t.keyreg = s.keyreg ∧ t.kv = s.kv ∧ t.dout = s.dout ∧ t.ports = s.ports ∧ t.taken = s.taken ∧
    t.draw = s.draw ∧ t.unitSel = s.unitSel ∧ t.unitIn = s.unitIn ∧ t.unitOut = s.unitOut

/-! ## The sequencer steps -/

/-- `STEP.WAIT` (R140, R152): in IDLE, with no accept event nothing happens; at an accept event the step is the
offered command. -/
def Obligations.WaitAcceptsOrDoesNothing : Prop :=
  ∀ (s : State) (d : Bool) (r : RoundIdx), s.ph = .idle →
    (acceptEvent s = false → exec (.stepWait d r) s = .next s) ∧
    (acceptEvent s = true →
      exec (.stepWait d r) s = exec (decode (.cmd ((inputs s).cmdOp ++ (inputs s).cmdData))) s ∧
      ∃ t, exec (.stepWait d r) s = .next t)

/-- R147: `STEP.ROUND.ENC`. -/
def Obligations.EncryptRoundWrites : Prop :=
  ∀ s : State, s.ph = .round → s.dir = false →
    let k0 := rotl28 s.kh0 (rotAmount installed s.rnd.toNat)
    let k1 := rotl28 s.kh1 (rotAmount installed s.rnd.toNat)
    let subkey : SubKey := applyTable 48 installed.rom.pc2 (k1 ++ k0)
    exec (.stepRoundEnc s.rnd) s = .next { s with
      kh0 := k0, kh1 := k1, l := s.r, r := s.l ^^^ roundFunction installed s.r subkey
      ph := if s.rnd = 15#4 then .final else .round
      rnd := if s.rnd = 15#4 then 15#4 else s.rnd + 1#4 }

/-- R148: `STEP.ROUND.DEC`. -/
def Obligations.DecryptRoundWrites : Prop :=
  ∀ s : State, s.ph = .round → s.dir = true →
    let k0 := if s.rnd = 0#4 then s.kh0 else rotr28 s.kh0 (rotAmount installed (16 - s.rnd.toNat))
    let k1 := if s.rnd = 0#4 then s.kh1 else rotr28 s.kh1 (rotAmount installed (16 - s.rnd.toNat))
    let subkey : SubKey := applyTable 48 installed.rom.pc2 (k1 ++ k0)
    exec (.stepRoundDec s.rnd) s = .next { s with
      kh0 := k0, kh1 := k1, l := s.r, r := s.l ^^^ roundFunction installed s.r subkey
      ph := if s.rnd = 15#4 then .final else .round
      rnd := if s.rnd = 15#4 then 15#4 else s.rnd + 1#4 }

/-- R149, R151: `STEP.FINAL`, with the halves crossed; `DIR` and `RND` are not read. -/
def Obligations.FinalStepWritesTheResult : Prop :=
  ∀ (s : State) (d : Bool) (r : RoundIdx), s.ph = .final →
    exec (.stepFinal d r) s = .next { s with dout := applyTable 64 installed.rom.fp (s.r ++ s.l : Block), ph := .resp }

/-- R150: `STEP.RESPOND`: with `rsp_ready = 1` and `rst = 0` the host receives `DOUT` (the list `taken` is the model's
own, log 7) and `PH` becomes IDLE; with `rsp_ready = 0` the engine waits, holds `rsp_data` and accepts no command. -/
def Obligations.RespondHandsOverTheResult : Prop :=
  ∀ (s : State) (d : Bool) (r : RoundIdx), s.ph = .resp →
    rspValid s = true ∧ rspData s = s.dout ∧ cmdReady s = false ∧
    ((inputs s).rspReady = true → (inputs s).rst = false →
      exec (.stepRespond d r) s = .next { s with taken := s.taken ++ [s.dout], ph := .idle }) ∧
    ((inputs s).rspReady = false → exec (.stepRespond d r) s = .next s)

/-- The model's choice (log 10): a step run where the selector does not name it is refused; R152 has no such
transition. -/
def Obligations.UnselectedStepIsRefused : Prop :=
  ∀ (s : State) (d : Bool) (r : RoundIdx),
    (s.ph ≠ .idle → exec (.stepWait d r) s = .refused .notSelected) ∧
    (s.ph ≠ .round ∨ s.dir = true ∨ s.rnd ≠ r → exec (.stepRoundEnc r) s = .refused .notSelected) ∧
    (s.ph ≠ .round ∨ s.dir = false ∨ s.rnd ≠ r → exec (.stepRoundDec r) s = .refused .notSelected) ∧
    (s.ph ≠ .final → exec (.stepFinal d r) s = .refused .notSelected) ∧
    (s.ph ≠ .resp → exec (.stepRespond d r) s = .refused .notSelected)

/-- Frame of the five sequencer steps (R37): what a next state leaves unchanged. -/
def Obligations.SequencerStepFrame : Prop :=
  ∀ (s t : State) (d : Bool) (r : RoundIdx),
    (exec (.stepWait d r) s = .next t →
      t.dout = s.dout ∧ t.ports = s.ports ∧ t.taken = s.taken ∧ t.draw = s.draw ∧
      t.unitSel = s.unitSel ∧ t.unitIn = s.unitIn ∧ t.unitOut = s.unitOut) ∧
    (exec (.stepRoundEnc r) s = .next t ∨ exec (.stepRoundDec r) s = .next t →
      t.keyreg = s.keyreg ∧ t.kv = s.kv ∧ t.dir = s.dir ∧ t.dout = s.dout ∧ t.ports = s.ports ∧ t.taken = s.taken ∧
      t.draw = s.draw ∧ t.unitSel = s.unitSel ∧ t.unitIn = s.unitIn ∧ t.unitOut = s.unitOut) ∧
    (exec (.stepFinal d r) s = .next t →
      t.keyreg = s.keyreg ∧ t.kv = s.kv ∧ t.kh0 = s.kh0 ∧ t.kh1 = s.kh1 ∧ t.l = s.l ∧ t.r = s.r ∧ t.rnd = s.rnd ∧
      t.dir = s.dir ∧ t.ports = s.ports ∧ t.taken = s.taken ∧ t.draw = s.draw ∧ t.unitSel = s.unitSel ∧
      t.unitIn = s.unitIn ∧ t.unitOut = s.unitOut) ∧
    (exec (.stepRespond d r) s = .next t →
      t.keyreg = s.keyreg ∧ t.kv = s.kv ∧ t.kh0 = s.kh0 ∧ t.kh1 = s.kh1 ∧ t.l = s.l ∧ t.r = s.r ∧ t.rnd = s.rnd ∧
      t.dir = s.dir ∧ t.dout = s.dout ∧ t.ports = s.ports ∧ t.draw = s.draw ∧ t.unitSel = s.unitSel ∧
      t.unitIn = s.unitIn ∧ t.unitOut = s.unitOut)

/-! ## The permutation unit and the ROM -/

/-- R93 to R99: the seven named operations run alone deliver `Apply` of their bank (the operand and the result are
fields of the model's own, log 9). -/
def Obligations.NamedSelectionsDeliverApply : Prop :=
  ∀ s : State,
    exec .applyIp s = .next { s with unitOut := applyTable 64 installed.rom.ip s.unitIn } ∧
    exec .applyFp s = .next { s with unitOut := applyTable 64 installed.rom.fp s.unitIn } ∧
    exec .applyPc1 s = .next { s with unitOut := (applyTable 56 installed.rom.pc1 s.unitIn).setWidth 64 } ∧
    exec .applyPc2 s = .next { s with unitOut := (applyTable 48 installed.rom.pc2 (s.unitIn.setWidth 56)).setWidth 64 } ∧
    exec .applyE s = .next { s with unitOut := (applyTable 48 installed.rom.e (s.unitIn.setWidth 32)).setWidth 64 } ∧
    exec .applyS s = .next { s with unitOut := (applyTable 32 installed.rom.s (s.unitIn.setWidth 48)).setWidth 64 } ∧
    exec .applyP s = .next { s with unitOut := (applyTable 32 installed.rom.p (s.unitIn.setWidth 32)).setWidth 64 }

/-- R100: `RSH` run alone delivers the rotation amount of the round index in the operand: 1 for rounds 0, 1, 8, 15 and
2 for all others; the sixteen amounts of every configuration sum to 28. -/
def Obligations.RotationAmountLookup : Prop :=
  (∀ s : State,
    let r : RoundIdx := s.unitIn.setWidth 4
    exec .rsh s = .next { s with unitOut := if r = 0#4 ∨ r = 1#4 ∨ r = 8#4 ∨ r = 15#4 then 1 else 2 }) ∧
  (∀ c : Cfg, ((List.range 16).map (rotAmount c)).sum = 28)

/-- R90 "no side effects": a unit operation run alone writes nothing but its result. -/
def Obligations.UnitOperationFrame : Prop :=
  ∀ (b : BitVec 3) (s t : State), exec (decodePu b) s = .next t → t = { s with unitOut := t.unitOut }

/-- R90: bit `i` of `Apply(T, v)` is bit `T[i] - 1` of `v`, and there is no bit at or above the table's length. -/
def Obligations.ApplySelectsTheNamedBits : Prop :=
  ∀ (n w : Nat) (table : List Nat) (v : BitVec n), table.length = w →
    (∀ e ∈ table, 1 ≤ e ∧ e ≤ n) →
    (∀ (i : Nat) (h : i < table.length), (applyTable w table v).getLsbD i = v.getLsbD (table[i] - 1)) ∧
    (∀ i, table.length ≤ i → (applyTable w table v).getLsbD i = false)

/-- R92 (ii) to (v), for any table whose entries lie in the source: zero gives zero, ones give ones, selection is
linear over XOR, and bits at or above the source width are not read. -/
def Obligations.ApplyOnZeroOnesAndXor : Prop :=
  ∀ (n w : Nat) (table : List Nat), table.length = w → (∀ e ∈ table, 1 ≤ e ∧ e ≤ n) →
    applyTable w table (0#n) = 0#w ∧
    applyTable w table (BitVec.allOnes n) = BitVec.allOnes w ∧
    (∀ a b : BitVec n, applyTable w table (a ^^^ b) = applyTable w table a ^^^ applyTable w table b) ∧
    (∀ (m : Nat) (v : BitVec m), n ≤ m → applyTable w table v = applyTable w table (v.setWidth n))

/-- R92 (vi), R91 (d): for every configuration IP and FP undo each other. -/
def Obligations.IpAndFpUndoEachOther : Prop :=
  ∀ (c : Cfg) (x : Block), selectFp c (selectIp c x) = x ∧ selectIp c (selectFp c x) = x

/-- R52: `RomRead` inside a bank's index range returns the bank's entry `T[i]`, in the bank's legal range and so held
whole in 7 bits (banks 0 to 6) or 2 bits (bank 7); outside the range it has no value; and the 9-bit address
`bank * 64 + index` reads the same entry. That the entry is `T[i]` is said of the contents, and as R90 says it: for
banks 0 to 6 it names the source bit that the bank's selection puts at `i`; for bank 7 it is the fixed amount (R100).
The indices `RND` and `16 - RND` that a round reads bank 7 at are never out of range. -/
def Obligations.RomReadByBankAndAddress : Prop :=
  ∀ (c : Cfg) (b : Bank),
    (∀ i, i < bankLength b → ∃ e, romRead c.rom b i = some e ∧ (bankTable c.rom b)[i]? = some e ∧
      1 ≤ e ∧ e ≤ bankSource b ∧ (b ≠ .roundShift → (positionBits e).toNat = e) ∧
      (b = .roundShift → (amountBits e).toNat = e)) ∧
    (∀ i e, romRead c.rom .ip i = some e → ∀ v, (selectIp c v).getLsbD i = v.getLsbD (e - 1)) ∧
    (∀ i e, romRead c.rom .fp i = some e → ∀ v, (selectFp c v).getLsbD i = v.getLsbD (e - 1)) ∧
    (∀ i e, romRead c.rom .pc1 i = some e → ∀ v, (selectPc1 c v).getLsbD i = v.getLsbD (e - 1)) ∧
    (∀ i e, romRead c.rom .pc2 i = some e → ∀ v, (selectPc2 c v).getLsbD i = v.getLsbD (e - 1)) ∧
    (∀ i e, romRead c.rom .e i = some e → ∀ v, (selectE c v).getLsbD i = v.getLsbD (e - 1)) ∧
    (∀ i e, romRead c.rom .s i = some e → ∀ v, (selectS c v).getLsbD i = v.getLsbD (e - 1)) ∧
    (∀ i e, romRead c.rom .p i = some e → ∀ v, (selectP c v).getLsbD i = v.getLsbD (e - 1)) ∧
    (∀ i, romRead c.rom .roundShift i = [1, 1, 2, 2, 2, 2, 2, 2, 1, 2, 2, 2, 2, 2, 2, 1][i]?) ∧
    (∀ r : RoundIdx, (romRead c.rom .roundShift r.toNat).isSome = true ∧
      (r ≠ 0#4 → (romRead c.rom .roundShift (16 - r.toNat)).isSome = true)) ∧
    (∀ i, bankLength b ≤ i → romRead c.rom b i = none) ∧
    (∀ i : BitVec 6, (romAddress b i).toNat = (bankNumber b).toNat * 64 + i.toNat ∧
      romReadAt c.rom (romAddress b i) = romRead c.rom b i.toNat)

/-- R171, R172: the static check passes exactly the well-formed configurations. -/
def Obligations.CheckPassesTheWellFormed : Prop := ∀ t : RomImage, romCheck t = none ↔ romWellFormed t

/-- R173: the check reports the first violation in the order V1 to V5, then lowest bank, then lowest index; V2 is never
reported, since V1 comes before it (the details of the record are log 18). -/
def Obligations.CheckReportsTheFirstViolation : Prop :=
  ∀ (t : RomImage) (rep : Report), romCheck t = some rep →
    rep.code ≠ .outputTooWide ∧
    (rep.code = .tableLength →
      (bankTable t rep.bank).length ≠ bankLength rep.bank ∧ rep.index = none ∧
      ∀ b, bankNumber b < bankNumber rep.bank → (bankTable t b).length = bankLength b) ∧
    (rep.code ≠ .tableLength → ∀ b, (bankTable t b).length = bankLength b) ∧
    (rep.code = .entryRange → ∃ i, rep.index = some i ∧
      (∃ e, (bankTable t rep.bank)[i]? = some e ∧ ¬ (1 ≤ e ∧ e ≤ bankSource rep.bank)) ∧
      (∀ j, j < i → ∀ e, (bankTable t rep.bank)[j]? = some e → 1 ≤ e ∧ e ≤ bankSource rep.bank) ∧
      (∀ b, bankNumber b < bankNumber rep.bank → ∀ e ∈ bankTable t b, 1 ≤ e ∧ e ≤ bankSource b)) ∧
    (rep.code = .fpNotInverse ∨ rep.code = .roundShiftValues →
      ∀ b, b ≠ .roundShift → ∀ e ∈ bankTable t b, 1 ≤ e ∧ e ≤ bankSource b) ∧
    (rep.code = .fpNotInverse → ∃ j, rep.bank = .fp ∧ rep.index = some j ∧ j < 64 ∧
      t.ip.getD (t.fp.getD j 0 - 1) 0 ≠ j + 1 ∧
      ∀ i, i < j → t.ip.getD (t.fp.getD i 0 - 1) 0 = i + 1) ∧
    (rep.code = .roundShiftValues → rep.bank = .roundShift ∧ rep.index = none ∧ t.rs ≠ roundShift ∧
      ∀ j, j < 64 → t.ip.getD (t.fp.getD j 0 - 1) 0 = j + 1)

/-! ## The key schedule and the round -/

/-- R110, R111: the rotations move bit `i` to bit `(i + n) mod 28` and back, and undo each other. -/
def Obligations.RotationsMoveBitsAndUndo : Prop :=
  ∀ (x : KeyHalf) (n : Nat), n ≤ 28 →
    (∀ i, i < 28 → (rotl28 x n).getLsbD ((i + n) % 28) = x.getLsbD i) ∧
    (∀ i, i < 28 → (rotr28 x n).getLsbD i = x.getLsbD ((i + n) % 28)) ∧
    rotr28 (rotl28 x n) n = x ∧ rotl28 (rotr28 x n) n = x

/-- R117: the pair from which the subkey of structural round `r` is derived is the loaded pair rotated left by `A(r)`,
and the decrypt row of `A` is the encrypt row read backwards. The spec marks R117 as its own: "derived: from rules R113,
R114, R115". -/
def Obligations.CumulativeRotations : Prop :=
  ∀ (c : Cfg) (k : PermKey) (x : Block),
    (∀ r a, [1, 2, 4, 6, 8, 10, 12, 14, 15, 17, 19, 21, 23, 25, 27, 28][r]? = some a →
      fwdSchedule c (r + 1) (ksLoad k x) = turnLeft a (ksLoad k x)) ∧
    (∀ r a, [28, 27, 25, 23, 21, 19, 17, 15, 14, 12, 10, 8, 6, 4, 2, 1][r]? = some a →
      revSchedule c (r + 1) (ksPrerot c (ksLoad k x)) = turnLeft a (ksLoad k x))

/-- R121: a whole turn. After round 15 of `ENCRYPT` the key halves are the loaded ones, the pre-rotation is the
identity, and after round 15 of `DECRYPT` they stand one place to the left. The spec marks R121 as its own: "derived: from
rules R110, R113, R114, R115". -/
def Obligations.WholeTurnOfTheKeyHalves : Prop :=
  ∀ (c : Cfg) (k : PermKey) (x : Block),
    (encRounds c 16 (ksLoad k x)).kh0 = (ksLoad k x).kh0 ∧ (encRounds c 16 (ksLoad k x)).kh1 = (ksLoad k x).kh1 ∧
    (∀ w : Work, ksPrerot c w = w) ∧
    (decRounds c 16 (ksPrerot c (ksLoad k x))).kh0 = rotl28 (ksLoad k x).kh0 1 ∧
    (decRounds c 16 (ksPrerot c (ksLoad k x))).kh1 = rotl28 (ksLoad k x).kh1 1

/-- R118: for every `KEYREG` the decrypt subkeys are the encrypt subkeys in reverse order, and `DK(0)` is derived from
the unrotated pair; `EK(r)` and `DK(r)` are the subkeys that round `r` of the two commands uses. -/
def Obligations.DecryptSubkeysAreReversed : Prop :=
  ∀ (c : Cfg) (k : PermKey),
    (∀ r, r < 16 → decSubkey c k r = encSubkey c k (15 - r)) ∧
    decSubkey c k 0 = selectPc2 c (k.extractLsb' 0 28 ++ k.extractLsb' 28 28) ∧
    (∀ (x : Block) (r : Nat), r < 16 →
      ksSubkey c (ksFwd c r (encRounds c r (ksLoad k x))) = encSubkey c k r ∧
      ksSubkey c (ksRev c r (decRounds c r (ksPrerot c (ksLoad k x)))) = decSubkey c k r)

/-- R130: the round function, its values at zero and ones, and its linearity over XOR in both operands together, which
the spec marks as its own: "derived: from 40_permutation_unit.md rule R92 (iv)". -/
def Obligations.RoundFunctionValues : Prop :=
  ∀ c : Cfg,
    (∀ half k, roundFunction c half k =
      applyTable 32 c.rom.p (applyTable 32 c.rom.s (applyTable 48 c.rom.e half ^^^ k) : Half)) ∧
    roundFunction c 0 0 = 0 ∧
    roundFunction c 0 (BitVec.allOnes 48) = BitVec.allOnes 32 ∧
    roundFunction c (BitVec.allOnes 32) (BitVec.allOnes 48) = 0 ∧
    (∀ a b j k, roundFunction c (a ^^^ b) (j ^^^ k) = roundFunction c a j ^^^ roundFunction c b k)

/-- R133: a round is undone by the same round after a swap, whatever the ROM contents. The spec marks it as its own:
"derived: from rule R131". -/
def Obligations.RoundUndoneAfterASwap : Prop :=
  ∀ (c : Cfg) (subkey : SubKey) (w : Work),
    let swap := fun w : Work => { w with l := w.r, r := w.l }
    feistelRound c subkey (swap (feistelRound c subkey w)) = swap w

/-! ## The cipher and whole commands -/

/-- Decryption undoes encryption (R154), and encryption undoes decryption, for every configuration, `KEYREG` and block;
both are bijections. R154 marks the second direction and the bijections as the spec's own: "the source does not state
this direction, it is [derived: from rules R142, R143, R151]". -/
def Obligations.DecryptionUndoesEncryption : Prop :=
  ∀ (c : Cfg) (k : PermKey),
    (∀ b, decBlock c k (encBlock c k b) = b) ∧ (∀ b, encBlock c k (decBlock c k b) = b) ∧
    Function.Bijective (encBlock c k) ∧ Function.Bijective (decBlock c k)

/-- R156: for every configuration the all-ones key encrypts the zero block to another block: `KEYREG` and all the
subkeys are ones, and the value given to FP is `0xFFFFFFFF00000000`. The spec marks the instance as its own: "derived:
from rules R142, R151 and 40_permutation_unit.md rule R92". -/
def Obligations.EncryptionIsNotTheIdentity : Prop :=
  ∀ c : Cfg,
    selectPc1 c (BitVec.allOnes 64) = BitVec.allOnes 56 ∧
    (∀ r, r < 16 → encSubkey c (BitVec.allOnes 56) r = BitVec.allOnes 48) ∧
    (encRounds c 16 (encStart c (BitVec.allOnes 56) 0)).l = 0 ∧
    (encRounds c 16 (encStart c (BitVec.allOnes 56) 0)).r = 0xFFFFFFFF ∧
    encryptTwo c (BitVec.allOnes 64) 0 = selectFp c 0xFFFFFFFF00000000 ∧ encryptTwo c (BitVec.allOnes 64) 0 ≠ 0

/-- R153: from an idle engine with a key, a block command offered at one step, any 17 steps without reset, any number
of steps in which the host does not take the response, and a step in which it does, hand the host exactly `Enc` or
`Dec` of rule R142 or R143 (log 7), and leave the engine idle with `KEYREG` and `KV` unchanged. That a wait in RESP
counts as a step is the model's choice, log 11. -/
def Obligations.MachineAgreesWithCommandLevel : Prop :=
  ∀ (s : State) (dec : Bool) (block : Block) (first last : PortsIn) (mid waits rest : List PortsIn),
    s.ph = .idle → s.kv = true → s.unitSel = none →
    s.ports = first :: (mid ++ (waits ++ last :: rest)) →
    first.cmdValid = true → first.cmdOp = (if dec then 0b11#2 else 0b10#2) → first.cmdData = block →
    first.rst = false → noReset mid → noReset waits → last.rst = false →
    mid.length = 17 → (∀ p ∈ waits, p.rspReady = false) → last.rspReady = true →
    ∃ t, run (19 + waits.length) s = .next t ∧ t.ph = .idle ∧ t.keyreg = s.keyreg ∧ t.kv = true ∧ t.ports = rest ∧
      t.taken = s.taken ++ [if dec then decBlock installed s.keyreg block else encBlock installed s.keyreg block]

/-- R160, R161 at every configuration: the host's lines driven through the sequencer end with the engine idle, the
`KEYREG`, `KV` and list of responses that the command level gives them (logs 6, 7). -/
def Obligations.DrivenLinesGiveCommandLevelResponses : Prop :=
  ∀ (c : Cfg) (ls : List CoreLine) (s : State) (out : CmdState) (responses : List Block),
    s.ph = .idle → s.unitSel = none →
    runCommands c ls ⟨s.keyreg, s.kv⟩ s.taken = some (out, responses) →
    ∃ t, driveProgram c ls s = some t ∧ t.ph = .idle ∧ t.keyreg = out.keyreg ∧ t.kv = out.kv ∧ t.taken = responses

/-- R32, R155: what is left over in a register that no phase reads again can never be seen: two states equal in
everything else show the same outputs, and step to two such states. Two such states may differ in `KEYREG` while
`KV = 0`, as long as the host keeps its duty to have no block command accepted then (R192); with equal `KEYREG` it may
break it, and the two responses depend on equal keys (R178; the free key of log 3). That such a command steps at all
rests on log 3, that a wait in RESP is a step on log 11. -/
def Obligations.LeftOverValuesAreNeverSeen : Prop :=
  ∀ s t : State, sameView s t → s.keyreg = t.keyreg ∨ hostDuty s = true →
    outputs s = outputs t ∧ ∃ s' t', step s = .next s' ∧ step t = .next t' ∧ sameView s' t' ∧
      (s.keyreg = t.keyreg → s'.keyreg = t'.keyreg)

/-- R157: no later step of a command reads or writes `KEYREG`: in the steps after the accept its value passes through
unseen, and no `SETKEY` is accepted. -/
def Obligations.SetkeyNeverAffectsACommandInFlight : Prop :=
  ∀ (s : State) (k : PermKey), s.ph ≠ .idle → s.unitSel = none →
    ∃ t, step s = .next t ∧ t.keyreg = s.keyreg ∧ step { s with keyreg := k } = .next { t with keyreg := k }

/-- R21, R22, R37: over any step `KEYREG` is written only by an accepted `SETKEY`, and `KV` is set only by it and
cleared only by reset. -/
def Obligations.KeyRegisterWrittenOnlyBySetkey : Prop :=
  ∀ s t : State, step s = .next t →
    (s.unitSel = none ∧ acceptEvent s = true ∧ (inputs s).cmdOp = 0b01#2 ∧
      t.keyreg = selectPc1 installed (inputs s).cmdData ∧ t.kv = true) ∨
    (t.keyreg = s.keyreg ∧ t.kv = s.kv) ∨
    (s.unitSel = none ∧ (inputs s).rst = true ∧ t.keyreg = s.keyreg ∧ t.kv = false)

/-- R161: a response is handed over only at a respond event, one at a time, in order, and it is `DOUT`; no step
produces one spontaneously, duplicates or drops one. -/
def Obligations.ResponsesOnlyAtRespondEvents : Prop :=
  ∀ s t : State, step s = .next t →
    (s.unitSel = none ∧ s.ph = .resp ∧ (inputs s).rspReady = true ∧ (inputs s).rst = false ∧
      t.taken = s.taken ++ [s.dout] ∧ t.ph = .idle) ∨
    (t.taken = s.taken ∧
      ¬ (s.unitSel = none ∧ s.ph = .resp ∧ (inputs s).rspReady = true ∧ (inputs s).rst = false))

/-- R198: from any round the response is ready after the rounds that remain and the final step, whatever the host does
but reset. -/
def Obligations.RoundsReachTheResponse : Prop :=
  ∀ s : State, s.unitSel = none → s.ph = .round → noReset s.ports →
    ∃ t, run (17 - s.rnd.toNat) s = .next t ∧ t.ph = .resp ∧ rspValid t = true ∧ t.taken = s.taken

/-- The invariants of the machine (R26, R112 to R117, R121, R149, R151, R157) are kept by every step. -/
def Obligations.InvariantsKeptByEveryStep : Prop :=
  ∀ s t : State, inv s → step s = .next t → inv t

/-- The invariants hold after reset, whatever the registers without a reset value hold. -/
def Obligations.InvariantsHoldAfterReset : Prop :=
  inv State.reset ∧ ∀ s : State, s.ph = .idle → s.kv = false → inv s

/-- R160, with the host of R80 and R162, at every configuration: a run of a program whose command-level run ends has a
next step at every point, whatever the host chooses at each step, a wait in RESP for a response not taken included;
from every point of it some choices of the host bring it to its end; and once every line is accepted, every response
taken and `PH = IDLE`, its result is the list of responses and the final `KEYREG` and `KV` of the command level. The
engine may start in any idle state, the states after reset among them; that the host's choices are given at each step
is log 6, and the list of responses is log 7. That a wait in RESP is a step to the same registers (R152's row for
`rsp_ready = 0`) is the model's choice, log 11, where R196, R178 and 93 U14 call a response never taken stuck: such a
run goes on stepping here and does not end. -/
def Obligations.RunsOfProgramsEndWithTheirResult : Prop :=
  ∀ (c : Cfg) (ls : List CoreLine) (s : State) (out : CmdState) (responses : List Block),
    s.ph = .idle → s.unitSel = none →
    runCommands c ls ⟨s.keyreg, s.kv⟩ s.taken = some (out, responses) →
    ∀ ms : List HostMove, ∃ r, runMoves c ms (runStart s ls) = some r ∧
      (runEnded r = true → runResult r = some (responses, out.keyreg, out.kv)) ∧
      ∃ (more : List HostMove) (e : Run), runMoves c more r = some e ∧ runEnded e = true

/-- R160, R162: while a run has not ended, nothing of it is a result: a line not yet accepted, a response not yet taken
or a phase other than IDLE each keeps it from having ended, and a run that has ended has none of them. -/
def Obligations.RunEndsExactlyWhenAllIsDone : Prop :=
  ∀ r : Run,
    (runEnded r = true ↔ r.lines = [] ∧ r.awaiting = false ∧ r.engine.ph = .idle) ∧
    (runEnded r = false → runResult r = none) ∧
    (runEnded r = true → runResult r = some (r.engine.taken, r.engine.keyreg, r.engine.kv))

/-! ## What a host can do wrong -/

/-- R178, the model's column (R22, R194, R196), on the joint step of host and engine: no move for a host that changed or
withdrew the word it owes, a refusal of a block command accepted while `KV = 0`, a stuck state where the response is
never taken, and in every other case the engine's step. In a run of a program (R160): a refused line leaves the run
without a step, and a run whose response is not taken does not end and has no result. Two things in it are the
model's choice and one is its inference. That a response is never taken is read off the host's finite list of levels,
after whose end every level is low (choice, log 6). Each wait in RESP counts as a step of a run, which goes on without
ending where R196 and 93 U14 call it stuck, and a wait for a response taken later as a joint step (choice, log 11). A
word offered at an edge with `rst` high stays owed, since nothing is accepted there (inference from R140 and R194, log
15). -/
def Obligations.HostViolationsInTheModel : Prop :=
  (∀ (c : Cfg) (g : Joint), g.engine.unitSel = none →
    let p := inputs g.engine
    let kept := ∀ w, g.owed = some w → p.cmdValid = true ∧ p.cmdOp ++ p.cmdData = w
    let keyless := p.rst = false ∧ p.cmdValid = true ∧ g.engine.ph = .idle ∧ g.engine.kv = false ∧
      (p.cmdOp = 0b10#2 ∨ p.cmdOp = 0b11#2)
    let untaken := g.engine.ph = .resp ∧ ∀ q ∈ g.engine.ports, q.rspReady = false ∧ q.rst = false
    (¬ kept → modelStep c g = .noMove) ∧
    (kept → keyless → modelStep c g = .refused) ∧
    (kept → untaken → modelStep c g = .stuck) ∧
    (kept → ¬ keyless → ¬ untaken → ∃ t, stepWith c g.engine = .next t ∧ modelStep c g = .next ⟨t,
      if p.cmdValid = true ∧ ¬ (g.engine.ph = .idle ∧ p.rst = false) then some (p.cmdOp ++ p.cmdData) else none⟩)) ∧
  (∀ (c : Cfg) (m : HostMove) (r : Run) (block : Block), r.engine.ph = .idle → r.engine.kv = false →
    m.offers = true → nextCommand r = some (.encrypt block) ∨ nextCommand r = some (.decrypt block) →
    runStep c m r = none) ∧
  (∀ (c : Cfg) (ms : List HostMove) (r : Run), r.engine.ph = .resp → r.engine.unitSel = none → r.awaiting = true →
    (∀ m ∈ ms, m.takes = false) →
    ∃ e, runMoves c ms r = some e ∧ e.engine.ph = .resp ∧ runEnded e = false ∧ runResult e = none)

/-- R178, the hardware's column, on the engine's own step: a block command accepted while `KV = 0` runs and responds with
a value that depends on the unspecified `KEYREG` (through the free value of log 3); a word changed before it is accepted
counts as it stands at the accept edge, here after a response that the host takes; and while the response is not taken
the engine waits in RESP with every register unchanged, however long. The model's choices in it are the form of the
free value (log 3), that the host is a list of levels, low after its end (log 6), the list of responses (log 7), that
each wait is a step (log 11); that only the word at the accept edge counts is R194's, as log 15 reads it. -/
def Obligations.HostViolationsOnTheHardware : Prop :=
  (∀ (s : State) (dec : Bool) (block : Block) (first last : PortsIn) (mid waits rest : List PortsIn),
    s.ph = .idle → s.kv = false → s.unitSel = none →
    s.ports = first :: (mid ++ (waits ++ last :: rest)) →
    first.cmdValid = true → first.cmdOp = (if dec then 0b11#2 else 0b10#2) → first.cmdData = block →
    first.rst = false → noReset mid → noReset waits → last.rst = false →
    mid.length = 17 → (∀ p ∈ waits, p.rspReady = false) → last.rspReady = true →
    let key := Config.unsetKey s.draw s.keyreg
    ∃ t, run (19 + waits.length) s = .next t ∧ t.ph = .idle ∧ t.keyreg = s.keyreg ∧ t.kv = false ∧
      t.taken = s.taken ++ [if dec then decBlock installed key block else encBlock installed key block]) ∧
  (∀ (s : State) (p q : PortsIn) (rest : List PortsIn), s.ph = .resp → s.unitSel = none → s.ports = p :: q :: rest →
    p.cmdValid = true → p.rspReady = true → p.rst = false → q.cmdValid = true → q.rst = false →
    let u := { s with ph := .idle, taken := s.taken ++ [s.dout], ports := q :: rest, draw := s.draw + 1 }
    ∃ t, exec (decode (.cmd (q.cmdOp ++ q.cmdData))) u = .next t ∧
      run 2 s = .next { t with ports := rest, draw := s.draw + 2 }) ∧
  (∀ (s : State) (n : Nat), s.ph = .resp → s.unitSel = none →
    (∀ p ∈ s.ports.take n, p.rspReady = false ∧ p.rst = false) →
    run n s = .next { s with ports := s.ports.drop n, draw := s.draw + n })
end

