-- ==== Sys2Proof/Laws/State.lean ====
section
/-! SUPPORT. What each shared update of the state writes: one lemma for each field of each update, so that no proof
unfolds a record update. -/

namespace Sys2Proof.Machine

/-! The fields after `withWork`. -/

@[simp] theorem withWork_keyreg (s : State) (w : Work) : (s.withWork w).keyreg = s.keyreg := rfl
@[simp] theorem withWork_kv (s : State) (w : Work) : (s.withWork w).kv = s.kv := rfl
@[simp] theorem withWork_kh0 (s : State) (w : Work) : (s.withWork w).kh0 = w.kh0 := rfl
@[simp] theorem withWork_kh1 (s : State) (w : Work) : (s.withWork w).kh1 = w.kh1 := rfl
@[simp] theorem withWork_l (s : State) (w : Work) : (s.withWork w).l = w.l := rfl
@[simp] theorem withWork_r (s : State) (w : Work) : (s.withWork w).r = w.r := rfl
@[simp] theorem withWork_ph (s : State) (w : Work) : (s.withWork w).ph = s.ph := rfl
@[simp] theorem withWork_rnd (s : State) (w : Work) : (s.withWork w).rnd = s.rnd := rfl
@[simp] theorem withWork_dir (s : State) (w : Work) : (s.withWork w).dir = s.dir := rfl
@[simp] theorem withWork_dout (s : State) (w : Work) : (s.withWork w).dout = s.dout := rfl
@[simp] theorem withWork_ports (s : State) (w : Work) : (s.withWork w).ports = s.ports := rfl
@[simp] theorem withWork_taken (s : State) (w : Work) : (s.withWork w).taken = s.taken := rfl
@[simp] theorem withWork_draw (s : State) (w : Work) : (s.withWork w).draw = s.draw := rfl
@[simp] theorem withWork_unitSel (s : State) (w : Work) : (s.withWork w).unitSel = s.unitSel := rfl
@[simp] theorem withWork_unitIn (s : State) (w : Work) : (s.withWork w).unitIn = s.unitIn := rfl
@[simp] theorem withWork_unitOut (s : State) (w : Work) : (s.withWork w).unitOut = s.unitOut := rfl

@[simp] theorem withWork_work (s : State) (w : Work) : (s.withWork w).work = w := rfl

/-! The fields after `startBlock`. -/

@[simp] theorem startBlock_keyreg (d : Bool) (w : Work) (s : State) : (startBlock d w s).keyreg = s.keyreg := rfl
@[simp] theorem startBlock_kv (d : Bool) (w : Work) (s : State) : (startBlock d w s).kv = s.kv := rfl
@[simp] theorem startBlock_kh0 (d : Bool) (w : Work) (s : State) : (startBlock d w s).kh0 = w.kh0 := rfl
@[simp] theorem startBlock_kh1 (d : Bool) (w : Work) (s : State) : (startBlock d w s).kh1 = w.kh1 := rfl
@[simp] theorem startBlock_l (d : Bool) (w : Work) (s : State) : (startBlock d w s).l = w.l := rfl
@[simp] theorem startBlock_r (d : Bool) (w : Work) (s : State) : (startBlock d w s).r = w.r := rfl
@[simp] theorem startBlock_ph (d : Bool) (w : Work) (s : State) : (startBlock d w s).ph = .round := rfl
@[simp] theorem startBlock_rnd (d : Bool) (w : Work) (s : State) : (startBlock d w s).rnd = 0#4 := rfl
@[simp] theorem startBlock_dir (d : Bool) (w : Work) (s : State) : (startBlock d w s).dir = d := rfl
@[simp] theorem startBlock_dout (d : Bool) (w : Work) (s : State) : (startBlock d w s).dout = s.dout := rfl
@[simp] theorem startBlock_ports (d : Bool) (w : Work) (s : State) : (startBlock d w s).ports = s.ports := rfl
@[simp] theorem startBlock_taken (d : Bool) (w : Work) (s : State) : (startBlock d w s).taken = s.taken := rfl
@[simp] theorem startBlock_draw (d : Bool) (w : Work) (s : State) : (startBlock d w s).draw = s.draw := rfl
@[simp] theorem startBlock_unitSel (d : Bool) (w : Work) (s : State) : (startBlock d w s).unitSel = s.unitSel := rfl
@[simp] theorem startBlock_unitIn (d : Bool) (w : Work) (s : State) : (startBlock d w s).unitIn = s.unitIn := rfl
@[simp] theorem startBlock_unitOut (d : Bool) (w : Work) (s : State) : (startBlock d w s).unitOut = s.unitOut := rfl

@[simp] theorem startBlock_work (d : Bool) (w : Work) (s : State) : (startBlock d w s).work = w := rfl

/-! The fields after `advanceRound`. -/

@[simp] theorem advanceRound_keyreg (w : Work) (s : State) : (advanceRound w s).keyreg = s.keyreg := by
  unfold advanceRound; split <;> rfl

@[simp] theorem advanceRound_kv (w : Work) (s : State) : (advanceRound w s).kv = s.kv := by
  unfold advanceRound; split <;> rfl

@[simp] theorem advanceRound_kh0 (w : Work) (s : State) : (advanceRound w s).kh0 = w.kh0 := by
  unfold advanceRound; split <;> rfl

@[simp] theorem advanceRound_kh1 (w : Work) (s : State) : (advanceRound w s).kh1 = w.kh1 := by
  unfold advanceRound; split <;> rfl

@[simp] theorem advanceRound_l (w : Work) (s : State) : (advanceRound w s).l = w.l := by
  unfold advanceRound; split <;> rfl

@[simp] theorem advanceRound_r (w : Work) (s : State) : (advanceRound w s).r = w.r := by
  unfold advanceRound; split <;> rfl

@[simp] theorem advanceRound_ph (w : Work) (s : State) : (advanceRound w s).ph = if s.rnd = 15#4 then .final else s.ph := by
  unfold advanceRound; split <;> rfl

@[simp] theorem advanceRound_rnd (w : Work) (s : State) : (advanceRound w s).rnd = if s.rnd = 15#4 then s.rnd else s.rnd + 1#4 := by
  unfold advanceRound; split <;> rfl

@[simp] theorem advanceRound_dir (w : Work) (s : State) : (advanceRound w s).dir = s.dir := by
  unfold advanceRound; split <;> rfl

@[simp] theorem advanceRound_dout (w : Work) (s : State) : (advanceRound w s).dout = s.dout := by
  unfold advanceRound; split <;> rfl

@[simp] theorem advanceRound_ports (w : Work) (s : State) : (advanceRound w s).ports = s.ports := by
  unfold advanceRound; split <;> rfl

@[simp] theorem advanceRound_taken (w : Work) (s : State) : (advanceRound w s).taken = s.taken := by
  unfold advanceRound; split <;> rfl

@[simp] theorem advanceRound_draw (w : Work) (s : State) : (advanceRound w s).draw = s.draw := by
  unfold advanceRound; split <;> rfl

@[simp] theorem advanceRound_unitSel (w : Work) (s : State) : (advanceRound w s).unitSel = s.unitSel := by
  unfold advanceRound; split <;> rfl

@[simp] theorem advanceRound_unitIn (w : Work) (s : State) : (advanceRound w s).unitIn = s.unitIn := by
  unfold advanceRound; split <;> rfl

@[simp] theorem advanceRound_unitOut (w : Work) (s : State) : (advanceRound w s).unitOut = s.unitOut := by
  unfold advanceRound; split <;> rfl

@[simp] theorem advanceRound_work (w : Work) (s : State) : (advanceRound w s).work = w := by
  unfold advanceRound; split <;> rfl

/-! The fields after `resetEdge`. -/

@[simp] theorem resetEdge_keyreg (s : State) : (resetEdge s).keyreg = s.keyreg := rfl
@[simp] theorem resetEdge_kv (s : State) : (resetEdge s).kv = false := rfl
@[simp] theorem resetEdge_kh0 (s : State) : (resetEdge s).kh0 = s.kh0 := rfl
@[simp] theorem resetEdge_kh1 (s : State) : (resetEdge s).kh1 = s.kh1 := rfl
@[simp] theorem resetEdge_l (s : State) : (resetEdge s).l = s.l := rfl
@[simp] theorem resetEdge_r (s : State) : (resetEdge s).r = s.r := rfl
@[simp] theorem resetEdge_ph (s : State) : (resetEdge s).ph = .idle := rfl
@[simp] theorem resetEdge_rnd (s : State) : (resetEdge s).rnd = s.rnd := rfl
@[simp] theorem resetEdge_dir (s : State) : (resetEdge s).dir = s.dir := rfl
@[simp] theorem resetEdge_dout (s : State) : (resetEdge s).dout = s.dout := rfl
@[simp] theorem resetEdge_ports (s : State) : (resetEdge s).ports = s.ports := rfl
@[simp] theorem resetEdge_taken (s : State) : (resetEdge s).taken = s.taken := rfl
@[simp] theorem resetEdge_draw (s : State) : (resetEdge s).draw = s.draw := rfl
@[simp] theorem resetEdge_unitSel (s : State) : (resetEdge s).unitSel = s.unitSel := rfl
@[simp] theorem resetEdge_unitIn (s : State) : (resetEdge s).unitIn = s.unitIn := rfl
@[simp] theorem resetEdge_unitOut (s : State) : (resetEdge s).unitOut = s.unitOut := rfl

@[simp] theorem resetEdge_work (s : State) : (resetEdge s).work = s.work := rfl

/-! The fields after `tick`. -/

@[simp] theorem tick_keyreg (s : State) : (tick s).keyreg = s.keyreg := rfl
@[simp] theorem tick_kv (s : State) : (tick s).kv = s.kv := rfl
@[simp] theorem tick_kh0 (s : State) : (tick s).kh0 = s.kh0 := rfl
@[simp] theorem tick_kh1 (s : State) : (tick s).kh1 = s.kh1 := rfl
@[simp] theorem tick_l (s : State) : (tick s).l = s.l := rfl
@[simp] theorem tick_r (s : State) : (tick s).r = s.r := rfl
@[simp] theorem tick_ph (s : State) : (tick s).ph = s.ph := rfl
@[simp] theorem tick_rnd (s : State) : (tick s).rnd = s.rnd := rfl
@[simp] theorem tick_dir (s : State) : (tick s).dir = s.dir := rfl
@[simp] theorem tick_dout (s : State) : (tick s).dout = s.dout := rfl
@[simp] theorem tick_ports (s : State) : (tick s).ports = s.ports.tail := rfl
@[simp] theorem tick_taken (s : State) : (tick s).taken = s.taken := rfl
@[simp] theorem tick_draw (s : State) : (tick s).draw = s.draw + 1 := rfl
@[simp] theorem tick_unitSel (s : State) : (tick s).unitSel = s.unitSel := rfl
@[simp] theorem tick_unitIn (s : State) : (tick s).unitIn = s.unitIn := rfl
@[simp] theorem tick_unitOut (s : State) : (tick s).unitOut = s.unitOut := rfl

@[simp] theorem tick_work (s : State) : (tick s).work = s.work := rfl

/-! The fields after `unitResult`. -/

@[simp] theorem unitResult_keyreg {n : Nat} (s : State) (v : BitVec n) : (unitResult s v).keyreg = s.keyreg := rfl
@[simp] theorem unitResult_kv {n : Nat} (s : State) (v : BitVec n) : (unitResult s v).kv = s.kv := rfl
@[simp] theorem unitResult_kh0 {n : Nat} (s : State) (v : BitVec n) : (unitResult s v).kh0 = s.kh0 := rfl
@[simp] theorem unitResult_kh1 {n : Nat} (s : State) (v : BitVec n) : (unitResult s v).kh1 = s.kh1 := rfl
@[simp] theorem unitResult_l {n : Nat} (s : State) (v : BitVec n) : (unitResult s v).l = s.l := rfl
@[simp] theorem unitResult_r {n : Nat} (s : State) (v : BitVec n) : (unitResult s v).r = s.r := rfl
@[simp] theorem unitResult_ph {n : Nat} (s : State) (v : BitVec n) : (unitResult s v).ph = s.ph := rfl
@[simp] theorem unitResult_rnd {n : Nat} (s : State) (v : BitVec n) : (unitResult s v).rnd = s.rnd := rfl
@[simp] theorem unitResult_dir {n : Nat} (s : State) (v : BitVec n) : (unitResult s v).dir = s.dir := rfl
@[simp] theorem unitResult_dout {n : Nat} (s : State) (v : BitVec n) : (unitResult s v).dout = s.dout := rfl
@[simp] theorem unitResult_ports {n : Nat} (s : State) (v : BitVec n) : (unitResult s v).ports = s.ports := rfl
@[simp] theorem unitResult_taken {n : Nat} (s : State) (v : BitVec n) : (unitResult s v).taken = s.taken := rfl
@[simp] theorem unitResult_draw {n : Nat} (s : State) (v : BitVec n) : (unitResult s v).draw = s.draw := rfl
@[simp] theorem unitResult_unitSel {n : Nat} (s : State) (v : BitVec n) : (unitResult s v).unitSel = s.unitSel := rfl
@[simp] theorem unitResult_unitIn {n : Nat} (s : State) (v : BitVec n) : (unitResult s v).unitIn = s.unitIn := rfl
@[simp] theorem unitResult_unitOut {n : Nat} (s : State) (v : BitVec n) : (unitResult s v).unitOut = v.setWidth 64 := rfl

@[simp] theorem unitResult_work {n : Nat} (s : State) (v : BitVec n) : (unitResult s v).work = s.work := rfl

/-! The fields after `withInputs`. -/

@[simp] theorem withInputs_keyreg (p : PortsIn) (s : State) : (withInputs p s).keyreg = s.keyreg := rfl
@[simp] theorem withInputs_kv (p : PortsIn) (s : State) : (withInputs p s).kv = s.kv := rfl
@[simp] theorem withInputs_kh0 (p : PortsIn) (s : State) : (withInputs p s).kh0 = s.kh0 := rfl
@[simp] theorem withInputs_kh1 (p : PortsIn) (s : State) : (withInputs p s).kh1 = s.kh1 := rfl
@[simp] theorem withInputs_l (p : PortsIn) (s : State) : (withInputs p s).l = s.l := rfl
@[simp] theorem withInputs_r (p : PortsIn) (s : State) : (withInputs p s).r = s.r := rfl
@[simp] theorem withInputs_ph (p : PortsIn) (s : State) : (withInputs p s).ph = s.ph := rfl
@[simp] theorem withInputs_rnd (p : PortsIn) (s : State) : (withInputs p s).rnd = s.rnd := rfl
@[simp] theorem withInputs_dir (p : PortsIn) (s : State) : (withInputs p s).dir = s.dir := rfl
@[simp] theorem withInputs_dout (p : PortsIn) (s : State) : (withInputs p s).dout = s.dout := rfl
@[simp] theorem withInputs_ports (p : PortsIn) (s : State) : (withInputs p s).ports = p :: s.ports.tail := rfl
@[simp] theorem withInputs_taken (p : PortsIn) (s : State) : (withInputs p s).taken = s.taken := rfl
@[simp] theorem withInputs_draw (p : PortsIn) (s : State) : (withInputs p s).draw = s.draw := rfl
@[simp] theorem withInputs_unitSel (p : PortsIn) (s : State) : (withInputs p s).unitSel = s.unitSel := rfl
@[simp] theorem withInputs_unitIn (p : PortsIn) (s : State) : (withInputs p s).unitIn = s.unitIn := rfl
@[simp] theorem withInputs_unitOut (p : PortsIn) (s : State) : (withInputs p s).unitOut = s.unitOut := rfl

@[simp] theorem withInputs_work (p : PortsIn) (s : State) : (withInputs p s).work = s.work := rfl

/-! The working registers as fields. -/

@[simp] theorem work_kh0 (s : State) : s.work.kh0 = s.kh0 := rfl
@[simp] theorem work_kh1 (s : State) : s.work.kh1 = s.kh1 := rfl
@[simp] theorem work_l (s : State) : s.work.l = s.l := rfl
@[simp] theorem work_r (s : State) : s.work.r = s.r := rfl

/-- Two states with the same working registers have the same four registers. -/
theorem work_eq_iff (s t : State) :
    s.work = t.work ↔ s.kh0 = t.kh0 ∧ s.kh1 = t.kh1 ∧ s.l = t.l ∧ s.r = t.r := by
  simp [State.work]

end Sys2Proof.Machine
end

