-- ==== Sys2Proof/Laws/Ops.lean ====
section
/-! SUPPORT. One lemma for each shared operation that says what it computes: the bits of a selection, the rotation
amounts, the bits of a rotation, the parts of a well-formed configuration, and the answers of the two guards. -/

namespace Sys2Proof.Machine

/-- The upper part of a concatenation (R9). -/
theorem append_upper {m n : Nat} (x : BitVec m) (y : BitVec n) : (x ++ y).extractLsb' n m = x := by
  ext i hi
  simp [BitVec.getLsbD_append, BitVec.getLsbD_eq_getElem hi]

/-- The lower part of a concatenation (R9). -/
theorem append_lower {m n : Nat} (x : BitVec m) (y : BitVec n) : (x ++ y).extractLsb' 0 n = y := by
  ext i hi
  simp [BitVec.getLsbD_append, hi]

/-- Bit `i` of a selection is the bit of the source that entry `i` names (R90). -/
theorem selectBits_testBit (v : Nat) (table : List Nat) (i : Nat) :
    (selectBits v table).testBit i = match table[i]? with | some e => v.testBit (e - 1) | none => false := by
  induction table generalizing i with
  | nil => simp [selectBits]
  | cons e es ih =>
    cases i with
    | zero =>
      simp only [selectBits, List.getElem?_cons_zero, Nat.testBit_zero]
      rw [Nat.testBit_eq_decide_div_mod_eq, ← Nat.shiftRight_eq_div_pow]
      have h : ((v >>> (e - 1)) % 2 + 2 * selectBits v es) % 2 = v >>> (e - 1) % 2 := by omega
      rw [h]
    | succ i =>
      simp only [selectBits, List.getElem?_cons_succ, Nat.testBit_succ]
      rw [← ih i]
      congr 1
      omega

/-- A bit of `Apply` with a result of `w` bits (R90). -/
theorem applyTable_bit {n : Nat} (w : Nat) (table : List Nat) (v : BitVec n) (i : Nat) :
    (applyTable w table v).getLsbD i =
      (decide (i < w) && match table[i]? with | some e => v.getLsbD (e - 1) | none => false) := by
  simp only [applyTable, BitVec.getLsbD_ofNat, selectBits_testBit]
  rfl

/-- The rotation amounts of any configuration are the sixteen fixed ones (R91 (e), R100). -/
theorem rotAmount_eq (c : Cfg) (r : Nat) : rotAmount c r = (roundShift[r]?).getD 0 := by
  simp [rotAmount, romRead, bankTable, c.wf.2.2.2.2]

/-- A bank of a configuration has its length (R91 (a)). -/
theorem bank_length (c : Cfg) (b : Bank) : (bankTable c.rom b).length = bankLength b :=
  c.wf.1 b (by cases b <;> simp [allBanks])

/-- An entry of a bit-selection bank lies in its range (R91 (c)). -/
theorem bank_range (c : Cfg) (b : Bank) (hb : b ≠ .roundShift) (e : Nat) (he : e ∈ bankTable c.rom b) :
    1 ≤ e ∧ e ≤ bankSource b := by
  have hs : b ∈ selectionBanks := by cases b <;> simp_all [selectionBanks]
  simpa [entryInRange] using c.wf.2.2.1 b hs e he

/-- FP inverts IP, entry by entry (R91 (d)). -/
theorem bank_inverse (c : Cfg) (j : Nat) (hj : j < 64) : c.rom.ip.getD (c.rom.fp.getD j 0 - 1) 0 = j + 1 := by
  simpa [fpInvertsAt] using c.wf.2.2.2.1 j (List.mem_range.mpr hj)

/-- A bit of a left rotation (R110). -/
theorem rotl28_bit (x : KeyHalf) (n i : Nat) (hn : n ≤ 28) :
    (rotl28 x n).getLsbD i = (decide (i < 28) && if i < n then x.getLsbD (28 - n + i) else x.getLsbD (i - n)) := by
  simp only [rotl28, BitVec.getLsbD_or, BitVec.getLsbD_shiftLeft, BitVec.getLsbD_ushiftRight]
  by_cases hi : i < 28
  · by_cases h : i < n
    · simp [hi, h]
    · have : x.getLsbD (28 - n + i) = false := BitVec.getLsbD_of_ge _ _ (by omega)
      simp [hi, h, this]
  · have : x.getLsbD (28 - n + i) = false := BitVec.getLsbD_of_ge _ _ (by omega)
    simp [hi, this]

/-- A bit of a right rotation (R111). -/
theorem rotr28_bit (x : KeyHalf) (n i : Nat) (hn : n ≤ 28) :
    (rotr28 x n).getLsbD i = (decide (i < 28) && if i < 28 - n then x.getLsbD (n + i) else x.getLsbD (i - (28 - n))) := by
  simp only [rotr28, BitVec.getLsbD_or, BitVec.getLsbD_shiftLeft, BitVec.getLsbD_ushiftRight]
  by_cases hi : i < 28
  · by_cases h : i < 28 - n
    · simp [hi, h]
    · have : x.getLsbD (n + i) = false := BitVec.getLsbD_of_ge _ _ (by omega)
      simp [hi, h, this]
  · have : x.getLsbD (n + i) = false := BitVec.getLsbD_of_ge _ _ (by omega)
    simp [hi, this]

/-- A command always answers a next state: its effect where the engine is ready, else nothing (R140). -/
theorem whenReady_eq (s t : State) : whenReady s t = .next (if cmdReady s then t else s) := rfl

/-- A step answers its effect where it is enabled, and is refused elsewhere (R152). -/
theorem whenSelected_next {enabled : Bool} {t u : State} :
    whenSelected enabled t = .next u ↔ enabled = true ∧ t = u := by
  unfold whenSelected; split <;> simp_all

end Sys2Proof.Machine
end

