-- ==== Sys2Proof/Laws/Exec.lean ====
section
/-! SUPPORT. What running one instruction can do, said once: the meanings are those of the installed configuration, a
run instruction leaves the host's levels, the counter and the unit's selector alone, and the four commands are what the
accept of a command word runs. -/

namespace Sys2Proof.Machine

/-- The meanings of the machine are those of the installed configuration. -/
theorem exec_eq_execWith (i : Instr) (s : State) : exec i s = execWith installed i s := by cases i <;> rfl

/-- The step of the machine is that of the installed configuration. -/
theorem step_eq_stepWith (s : State) : step s = stepWith installed s := by
  simp only [step, stepWith, edge, exec_eq_execWith]

/-- The accept of a command word runs the command the decoder reads from it (R70, R71, R140). -/
theorem acceptWith_eq (c : Cfg) (op : BitVec 2) (d : Block) (s : State) :
    acceptWith c op d s = execWith c (decodeCmd (op ++ d)) s := by
  have h1 : (op ++ d : BitVec 66).extractLsb' 64 2 = op := append_upper op d
  have h2 : (op ++ d : BitVec 66).extractLsb' 0 64 = d := append_lower op d
  simp only [acceptWith, decodeCmd, h1, h2]
  split
  · rfl
  · split
    · rfl
    · split <;> rfl

/-- The accept of a command word answers a next state (R140, R158). -/
theorem acceptWith_next (c : Cfg) (op : BitVec 2) (d : Block) (s : State) : ∃ t, acceptWith c op d s = .next t := by
  unfold acceptWith nopWith setkeyWith encryptWith decryptWith whenReady
  split
  · exact ⟨_, rfl⟩
  · split
    · exact ⟨_, rfl⟩
    · split <;> exact ⟨_, rfl⟩

/-- What no instruction writes: the levels the host presents, the counter of the free values, the unit's selector and
operand. -/
theorem execWith_keeps (c : Cfg) (i : Instr) (s t : State) (h : execWith c i s = .next t) :
    t.ports = s.ports ∧ t.draw = s.draw ∧ t.unitSel = s.unitSel ∧ t.unitIn = s.unitIn := by
  have ready : ∀ u : State, (u.ports = s.ports ∧ u.draw = s.draw ∧ u.unitSel = s.unitSel ∧ u.unitIn = s.unitIn) →
      whenReady s u = .next t →
      t.ports = s.ports ∧ t.draw = s.draw ∧ t.unitSel = s.unitSel ∧ t.unitIn = s.unitIn := by
    intro u hu h
    simp only [whenReady, Host.Outcome.next.injEq] at h
    subst h
    split <;> simp [hu]
  have accept : ∀ op d, acceptWith c op d s = .next t →
      t.ports = s.ports ∧ t.draw = s.draw ∧ t.unitSel = s.unitSel ∧ t.unitIn = s.unitIn := by
    intro op d h
    unfold acceptWith nopWith setkeyWith encryptWith decryptWith at h
    split at h
    · exact ready _ (by simp) h
    · split at h
      · exact ready _ (by simp) h
      · split at h <;> exact ready _ (by simp) h
  cases i with
  | nop operand => exact ready _ (by simp) h
  | setkey key => exact ready _ (by simp) h
  | encrypt block => exact ready _ (by simp) h
  | decrypt block => exact ready _ (by simp) h
  | stepWait dir rnd =>
    simp only [execWith, stepWaitWith] at h
    split at h
    · split at h
      · exact accept _ _ h
      · cases h; simp
    · cases h
  | stepRoundEnc rnd => obtain ⟨-, rfl⟩ := whenSelected_next.mp h; simp
  | stepRoundDec rnd => obtain ⟨-, rfl⟩ := whenSelected_next.mp h; simp
  | stepFinal dir rnd => obtain ⟨-, rfl⟩ := whenSelected_next.mp h; simp
  | stepRespond dir rnd => obtain ⟨-, rfl⟩ := whenSelected_next.mp h; split <;> simp
  | applyIp => cases h; simp
  | applyFp => cases h; simp
  | applyPc1 => cases h; simp
  | applyPc2 => cases h; simp
  | applyE => cases h; simp
  | applyS => cases h; simp
  | applyP => cases h; simp
  | rsh => cases h; simp

end Sys2Proof.Machine
end

