-- ==== Sys2Proof/Laws/PerInstr.lean ====
section
/-! SUPPORT. One statement for every instruction: its word carries the fixed bits of its row of spec/opcode_table.json
and is no wider than the row. -/

namespace Sys2Proof.Laws.RowPattern

/-- A row of the opcode table: its width in bits, the mask of the bits the row fixes, and their values. -/
structure Row where
  width : Nat
  mask  : Nat
  fixed : Nat
  deriving DecidableEq, Repr

/-- The row of an instruction, as spec/opcode_table.json has it. -/
def row : Instr → Row
  | .nop _ => ⟨66, 0x30000000000000000, 0x00000000000000000⟩
  | .setkey _ => ⟨66, 0x30000000000000000, 0x10000000000000000⟩
  | .encrypt _ => ⟨66, 0x30000000000000000, 0x20000000000000000⟩
  | .decrypt _ => ⟨66, 0x30000000000000000, 0x30000000000000000⟩
  | .stepWait _ _ => ⟨7, 0x60, 0x00⟩
  | .stepRoundEnc _ => ⟨7, 0x70, 0x20⟩
  | .stepRoundDec _ => ⟨7, 0x70, 0x30⟩
  | .stepFinal _ _ => ⟨7, 0x60, 0x40⟩
  | .stepRespond _ _ => ⟨7, 0x60, 0x60⟩
  | .applyIp => ⟨3, 0x7, 0x0⟩
  | .applyFp => ⟨3, 0x7, 0x1⟩
  | .applyPc1 => ⟨3, 0x7, 0x2⟩
  | .applyPc2 => ⟨3, 0x7, 0x3⟩
  | .applyE => ⟨3, 0x7, 0x4⟩
  | .applyS => ⟨3, 0x7, 0x5⟩
  | .applyP => ⟨3, 0x7, 0x6⟩
  | .rsh => ⟨3, 0x7, 0x7⟩

/-- The instruction's word matches its row (R70, R71, R76, R77). -/
def Statement (i : Instr) : Prop :=
  codeNat (encode i) &&& (row i).mask = (row i).fixed ∧ codeNat (encode i) < 2 ^ (row i).width ∧
    formatBits (codeFormat (encode i)) = (row i).width

/-- A command word matches a row that fixes its opcode. -/
theorem command (op : BitVec 2) (d : Block) :
    (op ++ d : BitVec 66).toNat &&& 0x30000000000000000 = op.toNat <<< 64 ∧ (op ++ d : BitVec 66).toNat < 2 ^ 66 := by
  refine ⟨?_, (op ++ d).isLt⟩
  have h : (op ++ d : BitVec 66) &&& (0b11#2 ++ 0#64) = op ++ 0#64 := by
    have h3 : op &&& 0b11#2 = op := by revert op; decide
    rw [BitVec.and_append, h3, BitVec.and_zero]
  have h2 := congrArg BitVec.toNat h
  have h4 : (0b11#2 ++ 0#64 : BitVec 66).toNat = 0x30000000000000000 := by decide
  have h5 : (op ++ 0#64 : BitVec 66).toNat = op.toNat <<< 64 := by clear h h2 h4; revert op; decide
  rw [BitVec.toNat_and, h4, h5] at h2
  exact h2

theorem nop (operand : Block) : Statement (.nop operand) := ⟨(command 0b00#2 operand).1, (command 0b00#2 operand).2, rfl⟩

theorem setkey (key : MasterKey) : Statement (.setkey key) := ⟨(command 0b01#2 key).1, (command 0b01#2 key).2, rfl⟩

theorem encrypt (block : Block) : Statement (.encrypt block) := ⟨(command 0b10#2 block).1, (command 0b10#2 block).2, rfl⟩

theorem decrypt (block : Block) : Statement (.decrypt block) := ⟨(command 0b11#2 block).1, (command 0b11#2 block).2, rfl⟩

theorem stepWait (dir : Bool) (rnd : RoundIdx) : Statement (.stepWait dir rnd) := by
  unfold Statement; cases dir <;> revert rnd <;> decide

theorem stepRoundEnc (rnd : RoundIdx) : Statement (.stepRoundEnc rnd) := by
  unfold Statement; revert rnd; decide

theorem stepRoundDec (rnd : RoundIdx) : Statement (.stepRoundDec rnd) := by
  unfold Statement; revert rnd; decide

theorem stepFinal (dir : Bool) (rnd : RoundIdx) : Statement (.stepFinal dir rnd) := by
  unfold Statement; cases dir <;> revert rnd <;> decide

theorem stepRespond (dir : Bool) (rnd : RoundIdx) : Statement (.stepRespond dir rnd) := by
  unfold Statement; cases dir <;> revert rnd <;> decide

theorem applyIp : Statement .applyIp := by unfold Statement; decide

theorem applyFp : Statement .applyFp := by unfold Statement; decide

theorem applyPc1 : Statement .applyPc1 := by unfold Statement; decide

theorem applyPc2 : Statement .applyPc2 := by unfold Statement; decide

theorem applyE : Statement .applyE := by unfold Statement; decide

theorem applyS : Statement .applyS := by unfold Statement; decide

theorem applyP : Statement .applyP := by unfold Statement; decide

theorem rsh : Statement .rsh := by unfold Statement; decide

end Sys2Proof.Laws.RowPattern
end

