-- ==== Sys2Proof/Laws/Step.lean ====
section
/-! SUPPORT. What one step can do, said once: the reset edge, a unit operation run alone, the accept of a command, or
the step the selector names; the proofs of invariants go through `step_cases`. -/

namespace Sys2Proof.Machine

/-- The instruction the selector names, by phase (R76). -/
theorem decodeSeq_selector (s : State) : decodeSeq (selector s) =
    match s.ph with
    | .idle => .stepWait s.dir s.rnd
    | .round => if s.dir then .stepRoundDec s.rnd else .stepRoundEnc s.rnd
    | .final => .stepFinal s.dir s.rnd
    | .resp => .stepRespond s.dir s.rnd := by
  have h1 : (selector s).extractLsb' 5 2 = phaseBits s.ph := by
    unfold selector
    cases s.ph <;> cases s.dir <;> generalize s.rnd = r <;> revert r <;> decide
  have h2 : (selector s).getLsbD 4 = s.dir := by
    unfold selector
    cases s.ph <;> cases s.dir <;> generalize s.rnd = r <;> revert r <;> decide
  have h3 : (selector s).extractLsb' 0 4 = s.rnd := append_lower _ s.rnd
  simp only [decodeSeq, h1, h2, h3]
  cases s.ph <;> simp [phaseBits]

/-- A step that is no reset edge runs the fetched instruction and retires it. -/
theorem stepWith_run (c : Cfg) (s : State) (h : resetAsserted s = false) :
    stepWith c s = match execWith c (fetch s) s with
      | .next t => .next (retire t)
      | .fault f => .fault f
      | .refused r => .refused r := by
  unfold stepWith edge
  rw [h]
  cases execWith c (fetch s) s <;> rfl

/-- A reset edge (R190). -/
theorem stepWith_reset (c : Cfg) (s : State) (h : resetAsserted s = true) :
    stepWith c s = .next (tick (resetEdge s)) := by
  simp [stepWith, edge, h]

/-- What the sequencer's own step does, by phase, when no reset is asserted and no unit operation presented (R152). -/
def sequenced (c : Cfg) (s : State) : Out :=
  match s.ph with
  | .idle => if acceptEvent s then acceptWith c (inputs s).cmdOp (inputs s).cmdData s else .next s
  | .round => .next (advanceRound (if s.dir then decRound c s.rnd.toNat s.work else encRound c s.rnd.toNat s.work) s)
  | .final => .next { s with dout := finalBlock c s.work, ph := .resp }
  | .resp => .next (if respondEvent s then { s with taken := s.taken ++ [s.dout], ph := .idle } else s)

/-- The fetched instruction of the sequencer does what the phase says. -/
theorem execWith_fetch (c : Cfg) (s : State) (hu : s.unitSel = none) : execWith c (fetch s) s = sequenced c s := by
  by_cases ha : acceptEvent s = true
  · have hp : s.ph = .idle := by
      simp only [acceptEvent, cmdReady, Bool.and_eq_true, beq_iff_eq] at ha
      exact ha.2.1
    simp only [fetch, fetchCode, hu, ha, sequenced, hp, decode, commandWord, if_true]
    exact (acceptWith_eq c _ _ s).symm
  · have hf : fetch s = decodeSeq (selector s) := by simp [fetch, fetchCode, hu, ha, decode]
    rw [hf, decodeSeq_selector]
    unfold sequenced
    cases hp : s.ph with
    | idle => simp [execWith, stepWaitWith, hp, ha]
    | round => cases hd : s.dir <;> simp [execWith, stepRoundEncWith, stepRoundDecWith, whenSelected, hp, hd]
    | final => simp [execWith, stepFinalWith, whenSelected, hp]
    | resp => simp [execWith, stepRespondWith, whenSelected, hp, rspData, rspValid]

/-- The sequencer's own step always answers a next state, and leaves the unit's selector alone. -/
theorem sequenced_next (c : Cfg) (s : State) (hu : s.unitSel = none) :
    ∃ t, sequenced c s = .next t ∧ t.unitSel = none ∧ t.ports = s.ports ∧ t.draw = s.draw ∧ t.unitIn = s.unitIn := by
  have hex : ∃ t, sequenced c s = .next t := by
    unfold sequenced
    split
    · split
      · exact acceptWith_next c _ _ s
      · exact ⟨_, rfl⟩
    · exact ⟨_, rfl⟩
    · exact ⟨_, rfl⟩
    · exact ⟨_, rfl⟩
  obtain ⟨t, ht⟩ := hex
  obtain ⟨h1, h2, h3, h4⟩ := execWith_keeps c (fetch s) s t (by rw [execWith_fetch c s hu, ht])
  exact ⟨t, ht, by rw [h3, hu], h1, h2, h4⟩

/-- The result of the unit operation of a bank selector, as a function of its operand. -/
def unitValue (c : Cfg) (b : BitVec 3) (operand : Block) : Block :=
  match nextOf (execWith c (decodePu b) { State.reset with unitIn := operand }) with
  | some t => t.unitOut
  | none => 0

/-- A unit operation run alone answers a next state that differs in the unit's result only (R90). -/
theorem execWith_unit (c : Cfg) (b : BitVec 3) (s : State) :
    execWith c (decodePu b) s = .next { s with unitOut := unitValue c b s.unitIn } := by
  unfold unitValue decodePu
  split
  · rfl
  · split
    · rfl
    · split
      · rfl
      · split
        · rfl
        · split
          · rfl
          · split
            · rfl
            · split <;> rfl

/-- Everything a step can do (R152, R190; log 9). -/
theorem step_cases (c : Cfg) (s : State) :
    (∃ b, s.unitSel = some b ∧
      stepWith c s = .next { s with unitOut := unitValue c b s.unitIn, unitSel := none }) ∨
    (s.unitSel = none ∧ (inputs s).rst = true ∧ stepWith c s = .next (tick (resetEdge s))) ∨
    (s.unitSel = none ∧ (inputs s).rst = false ∧ ∃ t, sequenced c s = .next t ∧ stepWith c s = .next (tick t)) := by
  cases hu : s.unitSel with
  | some b =>
    left
    refine ⟨b, rfl, ?_⟩
    rw [stepWith_run c s (by simp [resetAsserted, hu])]
    have hf : fetch s = decodePu b := by simp [fetch, fetchCode, hu, decode]
    simp [hf, execWith_unit, retire, hu]
  | none =>
    right
    cases hr : (inputs s).rst with
    | true => exact Or.inl ⟨rfl, rfl, stepWith_reset c s (by simp [resetAsserted, hu, hr])⟩
    | false =>
      obtain ⟨t, ht, htu, -⟩ := sequenced_next c s hu
      refine Or.inr ⟨rfl, rfl, t, ht, ?_⟩
      rw [stepWith_run c s (by simp [resetAsserted, hr]), execWith_fetch c s hu, ht]
      simp [retire, htu]

/-- What accepting a command word does to the state (R141 to R146). -/
theorem acceptWith_cases (c : Cfg) (op : BitVec 2) (d : Block) (s t : State) (hr : cmdReady s = true)
    (h : acceptWith c op d s = .next t) :
    (op = 0b00#2 ∧ t = s) ∨
    (op = 0b01#2 ∧ t = { s with keyreg := selectPc1 c d, kv := true }) ∨
    (op = 0b10#2 ∧ t = startBlock false (encStart c (keyRead s) d) s) ∨
    (op = 0b11#2 ∧ t = startBlock true (decStart c (keyRead s) d) s) := by
  have hop : op = 0b00#2 ∨ op = 0b01#2 ∨ op = 0b10#2 ∨ op = 0b11#2 := by
    clear h
    revert op
    decide
  rcases hop with rfl | rfl | rfl | rfl <;>
    simp [acceptWith, nopWith, setkeyWith, encryptWith, decryptWith, whenReady, hr] at h <;> simp [h]

end Sys2Proof.Machine
end

