-- ==== Sys2Proof/Laws/Protocol.lean ====
section
/-! SUPPORT. What the joint step of host and engine can answer, said once, and how it stands to the engine's own step. -/

namespace Sys2Proof.Machine

/-- The engine always moves where the spec's model lets it (R170). -/
theorem engineMoves_next (c : Cfg) (s : State) (owed : Option (BitVec 66)) :
    ∃ t, stepWith c s = .next t ∧ engineMoves c s owed = .next ⟨t, owed⟩ := by
  rcases step_cases c s with ⟨b, -, h⟩ | ⟨-, -, h⟩ | ⟨-, -, t, -, h⟩ <;>
    exact ⟨_, h, by simp [engineMoves, h, nextOf]⟩

/-- Everything the joint step can answer while the sequencer steps (R178). -/
theorem modelStep_cases (c : Cfg) (g : Joint) (hu : g.engine.unitSel = none) :
    (keepsWord g.owed (inputs g.engine) = false ∧ modelStep c g = .noMove) ∨
    (keepsWord g.owed (inputs g.engine) = true ∧ acceptsWithoutKey g.engine = true ∧ modelStep c g = .refused) ∨
    (keepsWord g.owed (inputs g.engine) = true ∧ acceptsWithoutKey g.engine = false ∧ neverTaken g.engine = true ∧
      modelStep c g = .stuck) ∨
    (keepsWord g.owed (inputs g.engine) = true ∧ acceptsWithoutKey g.engine = false ∧ neverTaken g.engine = false ∧
      ∃ t, stepWith c g.engine = .next t ∧ modelStep c g = .next ⟨t, owedAfter g.engine⟩) := by
  obtain ⟨t, ht, hm⟩ := engineMoves_next c g.engine (owedAfter g.engine)
  unfold modelStep
  cases keepsWord g.owed (inputs g.engine) <;> cases acceptsWithoutKey g.engine <;>
    cases neverTaken g.engine <;> simp [hu, ht, hm]

/-- Where the joint step moves, it is the engine's own step. -/
theorem modelStep_next (c : Cfg) (g j : Joint) (h : modelStep c g = .next j) : stepWith c g.engine = .next j.engine := by
  have moves : ∀ owed, engineMoves c g.engine owed = .next j → stepWith c g.engine = .next j.engine := by
    intro owed hm
    obtain ⟨t, ht, hn⟩ := engineMoves_next c g.engine owed
    rw [hn] at hm
    cases hm
    exact ht
  unfold modelStep at h
  split at h
  · exact moves _ h
  · split at h
    · cases h
    · split at h
      · cases h
      · split at h
        · cases h
        · exact moves _ h

/-- The levels keep an owed word exactly when they offer it again (R194). -/
theorem keepsWord_iff (owed : Option (BitVec 66)) (p : PortsIn) :
    keepsWord owed p = true ↔ ∀ w, owed = some w → p.cmdValid = true ∧ p.cmdOp ++ p.cmdData = w := by
  cases owed <;> simp [keepsWord]

/-- A block command is accepted while `KV = 0`, by the ports and the registers (R22, R71, R140). -/
theorem acceptsWithoutKey_iff (s : State) :
    acceptsWithoutKey s = true ↔ (inputs s).rst = false ∧ (inputs s).cmdValid = true ∧ s.ph = .idle ∧ s.kv = false ∧
      ((inputs s).cmdOp = 0b10#2 ∨ (inputs s).cmdOp = 0b11#2) := by
  have hop : ∀ op : BitVec 2, op.getLsbD 1 = true ↔ op = 0b10#2 ∨ op = 0b11#2 := by decide
  simp only [acceptsWithoutKey, acceptEvent, cmdReady, Bool.and_eq_true, Bool.not_eq_true', beq_iff_eq, hop]
  tauto

/-- The response is never taken, by the registers and what the host still does (R196). -/
theorem neverTaken_iff (s : State) :
    neverTaken s = true ↔ s.ph = .resp ∧ ∀ q ∈ s.ports, q.rspReady = false ∧ q.rst = false := by
  simp [neverTaken, rspValid]

end Sys2Proof.Machine
end

