-- ==== Sys2Proof/Laws/Run.lean ====
section
/-! SUPPORT. The small lemmas of a run of a program: what the host's levels are, when a line is accepted, what the
engine does at a step of a run, and how runs compose. -/

namespace Sys2Proof.Machine

/-- A command word offered by its two fields (R70). -/
theorem offer_word (op : BitVec 2) (d : Block) :
    offer ((op ++ d : BitVec 66).extractLsb' 64 2) ((op ++ d : BitVec 66).extractLsb' 0 64) = offer op d :=
  congrArg₂ offer (append_upper op d) (append_lower op d)

/-- The word of a program line's command is offered whole (R70, R80). -/
@[simp] theorem offerOf_nop (d : Block) : offerOf (.nop d) = offer 0b00#2 d :=
  offer_word 0b00#2 d

@[simp] theorem offerOf_setkey (d : Block) : offerOf (.setkey d) = offer 0b01#2 d :=
  offer_word 0b01#2 d

@[simp] theorem offerOf_encrypt (d : Block) : offerOf (.encrypt d) = offer 0b10#2 d :=
  offer_word 0b10#2 d

@[simp] theorem offerOf_decrypt (d : Block) : offerOf (.decrypt d) = offer 0b11#2 d :=
  offer_word 0b11#2 d

/-- The host of a run never asserts reset. -/
@[simp] theorem hostLevels_rst (m : HostMove) (r : Run) : (hostLevels m r).rst = false := by
  unfold hostLevels offerOf
  split <;> try rfl
  split <;> rfl

@[simp] theorem hostLevels_rspReady (m : HostMove) (r : Run) : (hostLevels m r).rspReady = m.takes := by
  unfold hostLevels
  split <;> rfl

@[simp] theorem inputs_presented (m : HostMove) (r : Run) : inputs (presented m r) = hostLevels m r := rfl

/-- A host that waits for a response, or does not choose to offer, offers nothing (R80). -/
theorem hostLevels_quiet (m : HostMove) (r : Run) (h : m.offers = false ∨ nextCommand r = none) :
    hostLevels m r = { PortsIn.quiet with rspReady := m.takes } := by
  unfold hostLevels
  rcases h with h | h
  · rw [h]
  · rw [h]
    cases m.offers <;> rfl

/-- A host that offers its next line puts its command on the port (R80). -/
theorem hostLevels_offer (m : HostMove) (r : Run) (i : Instr) (h : m.offers = true) (hi : nextCommand r = some i) :
    hostLevels m r = { offerOf i with rspReady := m.takes } := by
  unfold hostLevels
  rw [h, hi]

/-- A step of a run takes the engine's step and moves the host on. -/
theorem runStep_next (c : Cfg) (m : HostMove) (r : Run) (t : State) (hk : acceptsWithoutKey (presented m r) = false)
    (h : stepWith c (presented m r) = .next t) :
    runStep c m r = some ⟨t, linesAfter (presented m r) r, awaitingAfter (presented m r) r⟩ := by
  simp [runStep, h, hk, nextOf]

/-- A run in which a block command would be accepted while `KV = 0` has no step (R178). -/
theorem runStep_refused (c : Cfg) (m : HostMove) (r : Run) (hk : acceptsWithoutKey (presented m r) = true) :
    runStep c m r = none := by
  simp [runStep, hk]

/-- The engine's step in a run is the sequencer's own. -/
theorem presented_step (c : Cfg) (m : HostMove) (r : Run) (h : r.engine.unitSel = none) :
    ∃ t, sequenced c (presented m r) = .next t ∧ stepWith c (presented m r) = .next (tick t) := by
  rcases step_cases c (presented m r) with ⟨b, hb, -⟩ | ⟨-, hr, -⟩ | ⟨-, -, ht⟩
  · simp [presented, h] at hb
  · simp at hr
  · exact ht

/-- Steps of a run compose. -/
theorem runMoves_append (c : Cfg) (ms ns : List HostMove) (r t : Run) (h : runMoves c ms r = some t) :
    runMoves c (ms ++ ns) r = runMoves c ns t := by
  induction ms generalizing r with
  | nil => cases h; rfl
  | cons m ms ih =>
    obtain ⟨u, hu, ht⟩ := Option.bind_eq_some_iff.mp h
    simp only [List.cons_append, runMoves, hu, Option.bind_some]
    exact ih u ht

/-- A run has a result exactly when it has ended (R160). -/
theorem runResult_eq_none (r : Run) : runResult r = none ↔ runEnded r = false := by
  unfold runResult
  cases runEnded r <;> simp

end Sys2Proof.Machine
end

