-- ==== Sys2Proof/Tests/Slice0.lean ====
section
/-! SUPPORT. Tests with expected results taken from the spec: the patterns of 30_encoding, and the vectors and ill-formed
configurations of 95_test_vectors; and for each obligation with hypotheses a witness that meets them (the theorems
`witness_…`). -/

namespace Sys2Proof.Tests

open Machine Safety

set_option maxRecDepth 8000

/-! ## The fixture configuration of 95_test_vectors section 2 -/

/-- The tables `FIX`, by their formulas. -/
def fixRom : RomImage where
  ip  := (List.range 64).map fun i => (37 * i + 11) % 64 + 1
  fp  := (List.range 64).map fun j => (45 * (j + 53)) % 64 + 1
  pc1 := (List.range 56).map fun i => ((List.range' 1 64).filter fun p => p % 8 != 0).getD ((13 * i + 5) % 56) 0
  pc2 := (List.range 48).map fun i => (5 * i + 3) % 56 + 1
  e   := (List.range 48).map fun i => (4 * (i / 6) + i % 6 + 31) % 32 + 1
  s   := (List.range 32).map fun i => (7 * i + 2) % 48 + 1
  p   := (List.range 32).map fun i => (11 * i + 7) % 32 + 1
  rs  := [1, 1, 2, 2, 2, 2, 2, 2, 1, 2, 2, 2, 2, 2, 2, 1]

/-- `FIX` is well formed (95 section 2). -/
theorem test_fixture_wellFormed : romWellFormed fixRom := by decide

/-- The configuration `FIX`. -/
def fix : Cfg := ⟨fixRom, test_fixture_wellFormed⟩

/-! ## Ill-formed configurations: W1 to W9 of 95 section 8 -/

/-- W1. -/
def badLength : RomImage := { fixRom with e := fixRom.e.take 47 }
/-- W2. -/
def badP : RomImage := { fixRom with p := fixRom.p.set 3 33 }
/-- W5. -/
def badFp : RomImage := { fixRom with fp := fixRom.ip }
/-- W6. -/
def badAmount : RomImage := { fixRom with rs := fixRom.rs.set 8 2 }

theorem test_check_fixture : romCheck fixRom = none := by decide

theorem test_check_w1 : romCheck badLength = some ⟨.tableLength, .e, none⟩ := by decide

theorem test_check_w2 : romCheck badP = some ⟨.entryRange, .p, some 3⟩ := by decide

theorem test_check_w3 : romCheck { fixRom with s := fixRom.s.set 0 0 } = some ⟨.entryRange, .s, some 0⟩ := by decide

theorem test_check_w4 : romCheck { fixRom with pc2 := fixRom.pc2.set 10 57 } = some ⟨.entryRange, .pc2, some 10⟩ := by
  decide

theorem test_check_w5 : romCheck badFp = some ⟨.fpNotInverse, .fp, some 0⟩ := by decide

theorem test_check_w6 : romCheck badAmount = some ⟨.roundShiftValues, .roundShift, none⟩ := by decide

theorem test_check_w7 : romCheck { badP with e := fixRom.e.take 47 } = some ⟨.tableLength, .e, none⟩ := by decide

theorem test_check_w8 : romCheck { badP with pc2 := fixRom.pc2.set 10 57 } = some ⟨.entryRange, .pc2, some 10⟩ := by
  decide

theorem test_check_w9 : romCheck { fixRom with ip := fixRom.ip.set 0 13 } = some ⟨.fpNotInverse, .fp, some 11⟩ := by
  decide

/-! ## Decoding: words written out bit by bit (30_encoding sections 1 and 3; 95 sections 5.3 and 7) -/

theorem test_decode_commands :
    decode (.cmd 0b000000000000000000000000000000000000000000000000000000000000000101#66) = .nop 5 ∧
    decode (.cmd 0b010000000000000000000000000000000000000000000000000000000000000001#66) = .setkey 1 ∧
    decode (.cmd 0b100000000000000000000000000000000000000000000000000000010011010010#66) = .encrypt 1234 ∧
    decode (.cmd 0b111000000000000000000000000000000000000000000000000000000000000000#66) =
      .decrypt 0x8000000000000000 := by decide

theorem test_decode_steps :
    decode (.seq 0b0000000#7) = .stepWait false 0 ∧ decode (.seq 0b0011111#7) = .stepWait true 15 ∧
    decode (.seq 0b0100001#7) = .stepRoundEnc 1 ∧ decode (.seq 0b0111111#7) = .stepRoundDec 15 ∧
    decode (.seq 0b1011111#7) = .stepFinal true 15 ∧ decode (.seq 0b1101111#7) = .stepRespond false 15 := by decide

theorem test_decode_unit :
    decode (.pu 0b000#3) = .applyIp ∧ decode (.pu 0b001#3) = .applyFp ∧ decode (.pu 0b010#3) = .applyPc1 ∧
    decode (.pu 0b011#3) = .applyPc2 ∧ decode (.pu 0b100#3) = .applyE ∧ decode (.pu 0b101#3) = .applyS ∧
    decode (.pu 0b110#3) = .applyP ∧ decode (.pu 0b111#3) = .rsh := by decide

theorem test_decode_rejects :
    decodeBytes .cmd66 [0, 0] = .error .wrongLength ∧ decodeBytes .seq7 [0x80] = .error .excessBits ∧
    decodeBytes .seq7 [0x7F] = .ok (.stepRespond true 15) ∧ decodeBytes .pu3 [8] = .error .excessBits ∧
    decodeBytes .cmd66 [0, 0, 0, 0, 0, 0, 0, 0, 4] = .error .excessBits ∧
    decodeBytes .cmd66 [0xD2, 4, 0, 0, 0, 0, 0, 0, 2] = .ok (.encrypt 1234) := by decide

theorem test_tableWord :
    decodeTableWord 66 0x200000000000004D2 = some (.encrypt 1234) ∧ decodeTableWord 7 0b1001111 = some (.stepFinal false 15) ∧
    decodeTableWord 3 0b111 = some .rsh ∧ decodeTableWord 72 0x10000000000000001 = some (.setkey 1) ∧
    decodeTableWord 8 0b0100001 = some (.stepRoundEnc 1) ∧ decodeTableWord 16 0 = none := by decide

/-! ## The host's placing of a word -/

/-- A placed command, step or unit operation is what the next step takes. -/
theorem test_place :
    fetch (State.reset.withFetchWord 66 0x10000000000000001) = .setkey 1 ∧
    fetch (State.reset.withFetchWord 7 0b0110101) = .stepRoundDec 5 ∧
    fetch (State.reset.withFetchWord 7 0) = .stepWait false 0 ∧
    fetch (State.reset.withFetchWord 3 0b110) = .applyP := by decide

/-- A placed `NOP` runs as the first instruction after reset and changes nothing but the tick. -/
theorem test_place_nop : step (State.reset.withFetchWord 66 0x0FFFFFFFFFFFFFFFF) =
    .next { State.reset with draw := 1 } := rfl

/-- From reset with nothing placed, a step is the idle wait (R140). -/
theorem test_reset_waits : step State.reset = .next { State.reset with draw := 1 } := rfl

/-! ## The permutation unit and the ROM (95 section 3) -/

theorem test_apply_convention :
    applyTable 5 [3, 1, 1, 4, 2] 0b0110#4 = 17 ∧ applyTable 5 [3, 1, 1, 4, 2] 0b1111#4 = 31 ∧
    applyTable 4 [4, 3, 2, 1] 0b0001#4 = 8 ∧ applyTable 3 [2, 3, 1] 0b001#3 = 0b100 ∧
    applyTable 1 [2] 0b01#2 = 0 ∧ applyTable 3 [2, 2, 2] 0b10#2 = 7 ∧ applyTable 2 [1, 1] 1#1 = 3 := by decide

/-- A unit operation run alone with `FIX`: the result delivered for an operand. -/
def unitRun (i : Instr) (operand : Block) : Option Block :=
  (nextOf (execWith fix i { State.reset with unitIn := operand })).map State.unitOut

theorem test_applyIp : unitRun .applyIp 0x4D2 = some 0x4000000080081020 ∧ unitRun .applyIp 1 = some 0x20000 := by decide

theorem test_applyFp : unitRun .applyFp 0x5A2B92D499044A24 = some 0x89B444A501E6035A ∧ unitRun .applyFp 1 = some 0x800 := by
  decide

theorem test_applyPc1 : unitRun .applyPc1 0x0123456789ABCDEF = some 0x51F703559E7231 ∧ unitRun .applyPc1 0x8080 = some 0 := by
  decide

theorem test_applyPc2 : unitRun .applyPc2 0x59E723151F7035 = some 0xA627CA3E6A6C ∧ unitRun .applyPc2 0x80000 = some 0 := by
  decide

theorem test_applyE : unitRun .applyE 0x80081020 = some 0x4000500A0101 ∧ unitRun .applyE 1 = some 0x800000000002 := by decide

theorem test_applyS : unitRun .applyS 0x4000500A0101 = some 0x00900210 ∧ unitRun .applyS 1 = some 0 := by decide

theorem test_applyP : unitRun .applyP 0x00900210 = some 0x008100C0 ∧ unitRun .applyP 0xFFFF = some 0x25B6DA49 := by decide

theorem test_rsh : (List.range 16).map (fun r => unitRun .rsh (BitVec.ofNat 64 r)) =
    [1, 1, 2, 2, 2, 2, 2, 2, 1, 2, 2, 2, 2, 2, 2, 1].map some := by decide

theorem test_romRead :
    romReadAt fixRom 63 = some 39 ∧ romReadAt fixRom 64 = some 18 ∧ romReadAt fixRom 183 = some 55 ∧
    romReadAt fixRom 239 = some 15 ∧ romReadAt fixRom 256 = some 32 ∧ romReadAt fixRom 351 = some 28 ∧
    romReadAt fixRom 395 = some 1 ∧ romReadAt fixRom 456 = some 1 ∧ romReadAt fixRom 464 = none ∧
    positionBits 39 = 0b0100111 ∧ amountBits 2 = 0b10 := by decide

/-! ## The key schedule and the round (95 sections 4 and 6.1) -/

theorem test_rotl28 :
    rotl28 0x8000001 1 = 0x0000003 ∧ rotl28 0x4000000 2 = 0x0000001 ∧ rotl28 0x51F7035 2 = 0x47DC0D5 ∧
    rotl28 0x59E7231 1 = 0xB3CE462 := by decide

theorem test_rotr28 :
    rotr28 0x0000003 1 = 0x8000001 ∧ rotr28 0x0000001 2 = 0x4000000 ∧ rotr28 0x51F7035 2 = 0x547DC0D ∧
    rotr28 0xA3EE06A 1 = 0x51F7035 := by decide

theorem test_schedule :
    ksLoad 0x51F703559E7231 0 = ⟨0x51F7035, 0x59E7231, 0, 0⟩ ∧
    ksFwd fix 0 ⟨0x51F7035, 0x59E7231, 0, 0⟩ = ⟨0xA3EE06A, 0xB3CE462, 0, 0⟩ ∧
    ksPrerot fix ⟨0x51F7035, 0x59E7231, 0, 0⟩ = ⟨0x51F7035, 0x59E7231, 0, 0⟩ ∧
    ksRev fix 0 ⟨0x51F7035, 0x59E7231, 0, 0⟩ = ⟨0x51F7035, 0x59E7231, 0, 0⟩ ∧
    ksRev fix 1 ⟨0x51F7035, 0x59E7231, 0, 0⟩ = ⟨0xA8FB81A, 0xACF3918, 0, 0⟩ ∧
    ksRev fix 2 ⟨0xA8FB81A, 0xACF3918, 0, 0⟩ = ⟨0xAA3EE06, 0x2B3CE46, 0, 0⟩ := by decide

theorem test_subkey :
    ksSubkey fix ⟨0x0100000, 0, 0, 0⟩ = 0x002000000000 ∧ ksSubkey fix ⟨0, 0x0100000, 0, 0⟩ = 0x000000000200 := by decide

theorem test_roundFunction :
    roundFunction fix 0x80081020 0x000200000020 = 0x00C104C0 ∧ roundFunction fix 0x99044A24 0 = 0x0E020181 := by decide

theorem test_round :
    feistelRound fix 0x002000000000 ⟨0, 0, 0x40000000, 0x80081020⟩ = ⟨0, 0, 0x80081020, 0x448100C0⟩ := by decide

/-! ## One instruction on a small state (95 sections 5.1, 5.2 and 7) -/

/-- An engine with a key, idle, with nothing on its ports. -/
def keyed (key : PermKey) : State := { State.reset with keyreg := key, kv := true }

/-- An engine in a round. -/
def inRound (dir : Bool) (rnd : RoundIdx) (kh0 : KeyHalf) (l r : Half) : State :=
  { keyed 0x00800000000000 with kh0 := kh0, l := l, r := r, ph := .round, dir := dir, rnd := rnd }

/-- An engine in a phase, with a key. -/
def inPhase (ph : Phase) : State := { keyed 0x00800000000000 with ph := ph, rnd := 15, dout := 0x4D2 }

theorem test_nop : nextOf (execWith fix (.nop 0xFFFFFFFFFFFFFFFF) (keyed 5)) = some (keyed 5) := by decide

theorem test_setkey : nextOf (execWith fix (.setkey 1) State.reset) = some (keyed 0x00800000000000) := by decide

theorem test_encrypt : nextOf (execWith fix (.encrypt 1234) (keyed 0x00800000000000)) =
    some (inRound false 0 0x0080000 0x40000000 0x80081020) := by decide

theorem test_decrypt : nextOf (execWith fix (.decrypt 0x89B444A501E6035A) (keyed 0x00800000000000)) =
    some (inRound true 0 0x0080000 0x5A2B92D4 0x99044A24) := by decide

theorem test_roundEnc : nextOf (execWith fix (.stepRoundEnc 0) (inRound false 0 0x0080000 0x40000000 0x80081020)) =
    some (inRound false 1 0x0100000 0x80081020 0x448100C0) := by decide

theorem test_roundEnc_last : nextOf (execWith fix (.stepRoundEnc 15) (inRound false 15 0x0040000 0x54299355 0x99044A24)) =
    some { inRound false 15 0x0080000 0x99044A24 0x5A2B92D4 with ph := .final } := by decide

theorem test_roundDec : nextOf (execWith fix (.stepRoundDec 0) (inRound true 0 0x0080000 0x5A2B92D4 0x99044A24)) =
    some (inRound true 1 0x0080000 0x99044A24 0x54299355) := by decide

theorem test_roundDec_second : nextOf (execWith fix (.stepRoundDec 1) (inRound true 1 0x0080000 0x99044A24 0x54299355)) =
    some (inRound true 2 0x0040000 0x54299355 0xC8910C72) := by decide

theorem test_final :
    (nextOf (execWith fix (.stepFinal false 15) { inPhase .final with l := 0x99044A24, r := 0x5A2B92D4 })).map
      (fun t => (t.ph, t.dout)) = some (.resp, 0x89B444A501E6035A) := by decide

theorem test_respond :
    (nextOf (execWith fix (.stepRespond false 15) { inPhase .resp with ports := [takeResponse] })).map
      (fun t => (t.ph, t.taken)) = some (.idle, [0x4D2]) := by decide

theorem test_wait_accepts :
    nextOf (execWith fix (.stepWait true 9) { State.reset with ports := [offer 0b01#2 1] }) =
      some { keyed 0x00800000000000 with ports := [offer 0b01#2 1] } := by decide

/-! ## Programs (30_encoding section 5; 95 section 7) -/

theorem test_program :
    (parseProgram "SETKEY 1\nENCRYPT 1234 ; the source's example\nDECRYPT $0").map expandProgram =
      some [.setkey (.lit 1), .encrypt (.lit 1234), .decrypt (.resp 0)] := by decide

theorem test_program_pseudo :
    (parseProgram "NOP\nENCRYPTK 0x1, 1234").map expandProgram =
      some [.nop, .setkey (.lit 1), .encrypt (.lit 1234)] := by decide

theorem test_program_bad :
    parseProgram "HALT" = none ∧ parseProgram "ENCRYPT" = none ∧ parseProgram "SETKEY 0x1FFFFFFFFFFFFFFFF" = none ∧
    programOk 0 [.setkey (.lit 1), .decrypt (.resp 0)] = false := by decide

/-! ## Runs: when one has ended (R160), with a host that takes its time (R162) -/

theorem test_run_lines_left :
    runEnded (runStart State.reset [.nop]) = false ∧ runResult (runStart State.reset [.nop]) = none ∧
    (runMoves fix [⟨false, true⟩] (runStart State.reset [.nop])).map (fun r => (r.lines, runEnded r)) =
      some ([.nop], false) ∧
    (runMoves fix [⟨false, true⟩, ⟨true, false⟩] (runStart State.reset [.nop])).map runEnded = some true := by decide

/-- Every line accepted but the response not taken: not over, and nothing more is offered; the response ends it. -/
theorem test_run_response_left :
    (runMoves fix [⟨true, false⟩] (runStart (keyed 1) [.encrypt (.lit 0)])).map
      (fun r => (r.lines, r.awaiting, runEnded r)) = some ([], true, false) ∧
    (runMoves fix [⟨true, false⟩] ⟨inPhase .resp, [.nop], true⟩).map (fun r => (r.lines, r.awaiting)) =
      some ([.nop], true) ∧
    (runMoves fix [⟨true, true⟩] ⟨inPhase .resp, [], true⟩).map runResult =
      some (some ([0x4D2], 0x00800000000000, true)) := by decide

/-! ## What a host can do wrong (R178; 95 section 7, P6) -/

/-- P6: the spec's model has no step for `ENCRYPT 1234` offered after reset. -/
theorem test_program_P6 :
    runMoves fix [⟨true, true⟩] (runStart State.reset [.encrypt (.lit 1234)]) = none ∧
    modelStep fix ⟨{ State.reset with ports := [offer 0b10#2 1234] }, none⟩ = .refused ∧
    (runMoves fix [⟨true, true⟩, ⟨true, true⟩] (runStart State.reset [.nop, .encrypt (.lit 1234)])).isNone = true := by
  decide

/-- R194, R196: a changed word has no move, the same word has one; a response never taken is stuck, one taken later
is waited for. -/
theorem test_modelStep :
    modelStep fix ⟨{ inPhase .resp with ports := [offer 0b01#2 2] }, some (0b01#2 ++ 1#64)⟩ = .noMove ∧
    modelStep fix ⟨inPhase .resp, none⟩ = .stuck ∧
    modelStep fix ⟨{ inPhase .resp with ports := [offer 0b01#2 2, takeResponse] }, none⟩ =
      .next ⟨{ inPhase .resp with ports := [takeResponse], draw := 1 }, some (0b01#2 ++ 2#64)⟩ := by decide

/-! ## Witnesses -/

/-- Levels with `rst` asserted. -/
def resetting : PortsIn := { PortsIn.quiet with rst := true }

theorem witness_EveryWordIsOneInstruction : encode (.encrypt 1234) = .cmd 0x200000000000004D2#66 := by decide

theorem witness_SelectorNamesTheStep : 0b1011111#7 = 0b10#2 ++ BitVec.ofBool true ++ 0b1111#4 := by decide

theorem witness_BytesRejectedByName :
    ([] : List Byte).length ≠ formatBytes .pu3 ∧
    ([0x80] : List Byte).length = formatBytes .seq7 ∧ 2 ^ formatBits .seq7 ≤ bytesToNat [0x80] ∧
    bytesToNat [0x7F] < 2 ^ formatBits .seq7 ∧
    2 ^ formatBits .cmd66 ≤ bytesToNat [0, 0, 0, 0, 0, 0, 0, 0, 4] ∧
    bytesToNat [0xFF, 0xFF, 0xFF, 0xFF, 0xFF, 0xFF, 0xFF, 0xFF, 3] < 2 ^ formatBits .cmd66 := by decide

theorem witness_StepRunsTheFetchedInstruction :
    decode (fetchCode State.reset) = .stepWait false 0 ∧ State.reset.unitSel = none ∧
    (inputs State.reset).rst = false ∧ exec (.stepWait false 0) State.reset = .next State.reset := ⟨by decide, rfl, rfl, rfl⟩

theorem witness_StepRunsTheFetchedInstruction_unit :
    let s : State := { State.reset with unitSel := some 0b111#3 }
    decode (fetchCode s) = .rsh ∧ s.unitSel.isSome = true ∧ ∃ t, exec .rsh s = .next t := ⟨by decide, rfl, _, rfl⟩

theorem witness_OfferedCommandIsAccepted :
    let s : State := { State.reset with ports := [offer 0b11#2 7] }
    s.unitSel = none ∧ acceptEvent s = true := by decide

theorem witness_CommandPortIgnoredWhileBusy : (inPhase .resp).unitSel = none ∧ (inPhase .resp).ph ≠ .idle := by decide

theorem witness_UnreadyCommandChangesNothing :
    cmdReady (inPhase .round) = false ∧ cmdReady { State.reset with ports := [resetting] } = false := by decide

/-- A state idle or busy with given levels, for the clauses of the transition rule. -/
def presenting (ph : Phase) (rnd : RoundIdx) (p : PortsIn) : State := { State.reset with ph := ph, rnd := rnd, ports := [p] }

theorem witness_TransitionsOfTheSequencer :
    (∀ op : BitVec 2, (inputs (presenting .idle 0 (offer op 9))).rst = false ∧ (inputs (presenting .idle 0 (offer op 9))).cmdValid = true ∧
      (inputs (presenting .idle 0 (offer op 9))).cmdOp = op) ∧
    (inputs (presenting .idle 0 PortsIn.quiet)).cmdValid = false ∧
    (presenting .round 14 PortsIn.quiet).rnd < 15#4 ∧ (presenting .round 15 PortsIn.quiet).rnd = 15#4 ∧
    (presenting .final 15 PortsIn.quiet).ph = .final ∧
    (inputs (presenting .resp 15 takeResponse)).rspReady = true ∧ (inputs (presenting .resp 15 PortsIn.quiet)).rspReady = false := by
  decide

theorem witness_ResetAbandonsTheCommand :
    (presenting .round 7 resetting).unitSel = none ∧ (inputs (presenting .round 7 resetting)).rst = true ∧
    ∃ t, step (presenting .round 7 resetting) = .next t := ⟨rfl, rfl, _, rfl⟩

theorem witness_ResetValues :
    State.reset.ph = .idle ∧ State.reset.kv = false ∧ (inputs State.reset).rst = false := by decide

theorem witness_SetkeyStoresThePermutedKey :
    (keyed 1).ph = .idle ∧ (inputs (keyed 1)).rst = false := by decide

theorem witness_EncryptAcceptWrites :
    (keyed 1).ph = .idle ∧ (inputs (keyed 1)).rst = false ∧ (keyed 1).kv = true := by decide

theorem witness_DecryptAcceptWrites :
    (keyed 2).ph = .idle ∧ (inputs (keyed 2)).rst = false ∧ (keyed 2).kv = true := by decide

theorem witness_BlockCommandBeforeAnyKeyRuns :
    State.reset.ph = .idle ∧ (inputs State.reset).rst = false ∧ State.reset.kv = false := by decide

theorem witness_NopAndSetkeyFrame :
    (∃ t, exec (.nop 3) (keyed 1) = .next t) ∧ ∃ t, exec (.setkey 3) (keyed 1) = .next t := ⟨⟨_, rfl⟩, _, rfl⟩

theorem witness_BlockAcceptFrame :
    (∃ t, exec (.encrypt 3) (keyed 1) = .next t) ∧ ∃ t, exec (.decrypt 3) (keyed 1) = .next t := ⟨⟨_, rfl⟩, _, rfl⟩

theorem witness_WaitAcceptsOrDoesNothing :
    (keyed 1).ph = .idle ∧ acceptEvent (keyed 1) = false ∧
    acceptEvent { keyed 1 with ports := [offer 0b10#2 1] } = true := by decide

theorem witness_EncryptRoundWrites :
    (inRound false 0 1 2 3).ph = .round ∧ (inRound false 15 1 2 3).dir = false := by decide

theorem witness_DecryptRoundWrites :
    (inRound true 0 1 2 3).ph = .round ∧ (inRound true 15 1 2 3).dir = true := by decide

theorem witness_FinalStepWritesTheResult : (inPhase .final).ph = .final := by decide

theorem witness_RespondHandsOverTheResult :
    (presenting .resp 15 takeResponse).ph = .resp ∧ (inputs (presenting .resp 15 takeResponse)).rspReady = true ∧
    (inputs (presenting .resp 15 takeResponse)).rst = false ∧ (inputs (presenting .resp 15 PortsIn.quiet)).rspReady = false := by decide

theorem witness_UnselectedStepIsRefused :
    (inPhase .resp).ph ≠ .idle ∧ (inRound false 3 0 0 0).rnd ≠ 4 ∧ (inRound true 3 0 0 0).dir = true ∧
    (inRound false 3 0 0 0).dir = false ∧ (keyed 1).ph ≠ .round ∧ (keyed 1).ph ≠ .final ∧ (keyed 1).ph ≠ .resp := by decide

theorem witness_SequencerStepFrame :
    (∃ t, exec (.stepWait false 0) { keyed 1 with ports := [offer 0b10#2 1] } = .next t) ∧
    (∃ t, exec (.stepRoundEnc 0) (inRound false 0 1 2 3) = .next t) ∧
    (∃ t, exec (.stepRoundDec 15) (inRound true 15 1 2 3) = .next t) ∧
    (∃ t, exec (.stepFinal true 15) (inPhase .final) = .next t) ∧
    (∃ t, exec (.stepRespond true 15) (presenting .resp 15 takeResponse) = .next t) :=
  ⟨⟨_, rfl⟩, ⟨_, rfl⟩, ⟨_, rfl⟩, ⟨_, rfl⟩, _, rfl⟩

theorem witness_UnitOperationFrame : ∃ t, exec (decodePu 0b100#3) (keyed 1) = .next t := ⟨_, rfl⟩

theorem witness_ApplySelectsTheNamedBits :
    [3, 1, 1, 4, 2].length = 5 ∧ (∀ e ∈ [3, 1, 1, 4, 2], 1 ≤ e ∧ e ≤ 4) ∧ 4 < [3, 1, 1, 4, 2].length ∧
    [3, 1, 1, 4, 2].length ≤ 5 := by decide

theorem witness_ApplyOnZeroOnesAndXor :
    [3, 1, 1, 4, 2].length = 5 ∧ (∀ e ∈ [3, 1, 1, 4, 2], 1 ≤ e ∧ e ≤ 4) ∧ 4 ≤ 7 := by decide

theorem witness_RomReadByBankAndAddress :
    15 < bankLength .roundShift ∧ 15#4 ≠ 0#4 ∧ bankLength .roundShift ≤ 16 ∧ 63 < bankLength .ip ∧ Bank.ip ≠ .roundShift ∧
    romRead fixRom .ip 63 = some 39 ∧ romRead fixRom .fp 0 = some 18 ∧ romRead fixRom .pc1 55 = some 55 ∧
    romRead fixRom .pc2 47 = some 15 ∧ romRead fixRom .e 0 = some 32 ∧ romRead fixRom .s 31 = some 28 ∧
    romRead fixRom .p 11 = some 1 := by decide

theorem witness_CheckReportsTheFirstViolation :
    (∃ rep, romCheck badLength = some rep ∧ rep.code = .tableLength) ∧
    (∃ rep, romCheck badP = some rep ∧ rep.code = .entryRange) ∧
    (∃ rep, romCheck badFp = some rep ∧ rep.code = .fpNotInverse) ∧
    (∃ rep, romCheck badAmount = some rep ∧ rep.code = .roundShiftValues) :=
  ⟨⟨_, test_check_w1, rfl⟩, ⟨_, test_check_w2, rfl⟩, ⟨_, test_check_w5, rfl⟩, _, test_check_w6, rfl⟩

theorem witness_RotationsMoveBitsAndUndo : 0 ≤ 28 ∧ 28 ≤ 28 ∧ 27 < 28 := by decide

theorem witness_CumulativeRotations :
    [1, 2, 4, 6, 8, 10, 12, 14, 15, 17, 19, 21, 23, 25, 27, 28][15]? = some 28 ∧
    [28, 27, 25, 23, 21, 19, 17, 15, 14, 12, 10, 8, 6, 4, 2, 1][15]? = some 1 := by decide

theorem witness_DecryptSubkeysAreReversed : decSubkey fix 0x51F703559E7231 15 = 0x9074C4F947CD ∧ 15 < 16 := by decide

/-- A host that offers `ENCRYPT 1234`, lets the engine wait twice in RESP, and takes the response. -/
theorem witness_MachineAgreesWithCommandLevel :
    let s : State := { keyed 1 with ports := offer 0b10#2 1234 :: (List.replicate 17 PortsIn.quiet ++
      (List.replicate 2 PortsIn.quiet ++ takeResponse :: [])) }
    s.ph = .idle ∧ s.kv = true ∧ s.unitSel = none ∧ noReset (List.replicate 17 PortsIn.quiet) ∧
    (List.replicate 17 PortsIn.quiet).length = 17 ∧ noReset (List.replicate 2 PortsIn.quiet) ∧
    (∀ p ∈ List.replicate 2 PortsIn.quiet, p.rspReady = false) ∧ takeResponse.rspReady = true ∧
    takeResponse.rst = false ∧ (offer 0b10#2 1234).cmdValid = true ∧ (offer 0b10#2 1234).cmdOp = 0b10#2 := by
  unfold noReset; decide

theorem witness_DrivenLinesGiveCommandLevelResponses :
    ∃ out responses, runCommands fix [.nop, .setkey (.lit 1), .encrypt (.lit 1234), .decrypt (.resp 0)]
      ⟨0, false⟩ [] = some (out, responses) := ⟨_, _, rfl⟩

theorem witness_RunsOfProgramsEndWithTheirResult :
    State.reset.ph = .idle ∧ State.reset.unitSel = none ∧
    ∃ out responses, runCommands fix [.nop, .setkey (.lit 1), .encrypt (.lit 1234), .decrypt (.resp 0)]
      ⟨State.reset.keyreg, State.reset.kv⟩ State.reset.taken = some (out, responses) := ⟨rfl, rfl, _, _, rfl⟩

theorem witness_RunsOfProgramsEndWithTheirResult_ended :
    (runMoves fix [⟨true, true⟩] (runStart State.reset [.setkey (.lit 1)])).map runEnded = some true := by decide

theorem witness_RunEndsExactlyWhenAllIsDone :
    runEnded (runStart State.reset []) = true ∧ runEnded ⟨inPhase .final, [], false⟩ = false := by decide

theorem witness_LeftOverValuesAreNeverSeen : sameView (keyed 1) { keyed 1 with l := 5, dout := 6, kh0 := 7 } ∧
    (sameView State.reset { State.reset with keyreg := 9 } ∧ hostDuty State.reset = true) ∧
    (keyed 1).keyreg = { keyed 1 with l := 5, dout := 6, kh0 := 7 }.keyreg := by
  unfold sameView; decide

theorem witness_SetkeyNeverAffectsACommandInFlight : (inPhase .final).ph ≠ .idle ∧ (inPhase .final).unitSel = none := by
  decide

theorem witness_KeyRegisterWrittenOnlyBySetkey :
    (∃ t, step { keyed 1 with ports := [offer 0b01#2 1] } = .next t) ∧ ∃ t, step (presenting .round 3 resetting) = .next t :=
  ⟨⟨_, rfl⟩, _, rfl⟩

theorem witness_ResponsesOnlyAtRespondEvents :
    (∃ t, step (presenting .resp 15 takeResponse) = .next t) ∧ ∃ t, step (presenting .resp 15 PortsIn.quiet) = .next t :=
  ⟨⟨_, rfl⟩, _, rfl⟩

theorem witness_RoundsReachTheResponse :
    (presenting .round 0 takeResponse).unitSel = none ∧ (presenting .round 0 takeResponse).ph = .round ∧
    noReset (presenting .round 0 takeResponse).ports ∧ noReset (presenting .round 15 PortsIn.quiet).ports := by unfold noReset; decide

/-- The state after the accept of a `DECRYPT`, and after the last round of an `ENCRYPT`. -/
theorem witness_InvariantsKeptByEveryStep :
    inv (inRound true 0 0x0080000 0x5A2B92D4 0x99044A24) ∧
    inv { inRound false 15 0x0080000 0x99044A24 0x5A2B92D4 with ph := .final } ∧
    ∃ t, step (inRound true 0 0x0080000 0x5A2B92D4 0x99044A24) = .next t := by
  refine ⟨⟨by unfold keyHalvesFollow; decide, by unfold roundIndexLeft; decide, fun h => by cases h⟩,
    ⟨by unfold keyHalvesFollow; decide, by unfold roundIndexLeft; decide, fun h => by cases h⟩, _, rfl⟩

/-- The four clauses of the joint step: a word owed and not kept, no key, a response never taken, and none of them;
then a refused line and a run that waits in RESP. -/
theorem witness_HostViolationsInTheModel :
    (∃ w, (some (0b01#2 ++ 1#64) : Option (BitVec 66)) = some w ∧
      ¬ ((inputs State.reset).cmdValid = true ∧ (inputs State.reset).cmdOp ++ (inputs State.reset).cmdData = w)) ∧
    acceptsWithoutKey { State.reset with ports := [offer 0b11#2 0] } = true ∧ neverTaken (inPhase .resp) = true ∧
    acceptsWithoutKey (keyed 1) = false ∧ neverTaken (keyed 1) = false ∧ (keyed 1).unitSel = none ∧
    State.reset.kv = false ∧ nextCommand (runStart State.reset [.decrypt (.lit 7)]) = some (.decrypt 7) ∧
    (inPhase .resp).ph = .resp ∧ (∀ m ∈ [HostMove.mk true false, ⟨false, false⟩], m.takes = false) := by
  refine ⟨⟨_, rfl, by decide⟩, ?_⟩
  decide

theorem witness_HostViolationsOnTheHardware :
    (let s : State := { State.reset with ports := offer 0b11#2 1234 :: (List.replicate 17 PortsIn.quiet ++
      (List.replicate 2 PortsIn.quiet ++ takeResponse :: [])) }
    s.ph = .idle ∧ s.kv = false ∧ s.unitSel = none ∧ noReset (List.replicate 17 PortsIn.quiet) ∧
    noReset (List.replicate 2 PortsIn.quiet) ∧ (offer 0b11#2 1234).cmdOp = 0b11#2) ∧
    (let p : PortsIn := { offer 0b10#2 5 with rspReady := true }
    p.cmdValid = true ∧ p.rspReady = true ∧ p.rst = false ∧ (offer 0b01#2 6).cmdValid = true) ∧
    (∀ p ∈ (presenting .resp 15 (offer 0b10#2 5)).ports.take 1, p.rspReady = false ∧ p.rst = false) := by
  unfold noReset; decide

theorem witness_InvariantsHoldAfterReset : State.reset.ph = .idle ∧ State.reset.kv = false := by decide

end Sys2Proof.Tests
end

section
/-! SUPPORT. The transitions of the sequencer as a relation with one constructor for each row of R152, tied to
`sequenced`, and the machine's step by its three kinds of edge: the form in which the proofs below case on a step. -/

namespace Sys2Proof.Machine

/-- The working registers a round step writes, by direction (R147, R148). -/
def roundWork (c : Cfg) (s : State) : Work :=
  if s.dir then decRound c s.rnd.toNat s.work else encRound c s.rnd.toNat s.work

/-- The transitions of the sequencer while no reset is asserted (R152): from `s` to the indexed state, before the tick
that ends the step. -/
inductive Transition (c : Cfg) (s : State) : State → Prop where
  /-- In IDLE, with no command accepted or with `NOP` accepted. -/
  | wait (idle : s.ph = .idle) (nop : acceptEvent s = true → (inputs s).cmdOp = 0b00#2) : Transition c s s
  | setkey (accepted : acceptEvent s = true) (op : (inputs s).cmdOp = 0b01#2) :
      Transition c s { s with keyreg := selectPc1 c (inputs s).cmdData, kv := true }
  | encrypt (accepted : acceptEvent s = true) (op : (inputs s).cmdOp = 0b10#2) :
      Transition c s (startBlock false (encStart c (keyRead s) (inputs s).cmdData) s)
  | decrypt (accepted : acceptEvent s = true) (op : (inputs s).cmdOp = 0b11#2) :
      Transition c s (startBlock true (decStart c (keyRead s) (inputs s).cmdData) s)
  | round (inRound : s.ph = .round) : Transition c s (advanceRound (roundWork c s) s)
  | final (inFinal : s.ph = .final) : Transition c s { s with dout := finalBlock c s.work, ph := .resp }
  | respond (inResp : s.ph = .resp) (taken : respondEvent s = true) :
      Transition c s { s with taken := s.taken ++ [s.dout], ph := .idle }
  | hold (inResp : s.ph = .resp) (untaken : respondEvent s = false) : Transition c s s

/-- The accept event, by the ports and the phase (R140). -/
theorem acceptEvent_iff (s : State) :
    acceptEvent s = true ↔ (inputs s).rst = false ∧ (inputs s).cmdValid = true ∧ s.ph = .idle := by
  simp only [acceptEvent, cmdReady, Bool.and_eq_true, Bool.not_eq_true', beq_iff_eq]
  tauto

/-- The engine is ready where a command is accepted (R140). -/
theorem cmdReady_of_acceptEvent {s : State} (h : acceptEvent s = true) : cmdReady s = true := by
  simp only [acceptEvent, Bool.and_eq_true] at h
  exact h.2

/-- The engine is idle where a command is accepted (R140). -/
theorem idle_of_acceptEvent {s : State} (h : acceptEvent s = true) : s.ph = .idle :=
  ((acceptEvent_iff s).mp h).2.2

/-- What the sequencer does at an accept event: the accept of the offered command. -/
theorem sequenced_accept (c : Cfg) {s : State} (h : acceptEvent s = true) :
    sequenced c s = acceptWith c (inputs s).cmdOp (inputs s).cmdData s := by
  simp [sequenced, idle_of_acceptEvent h, h]

/-- Every move of the sequencer is one of the transitions of R152. -/
theorem transition_of_sequenced {c : Cfg} {s t : State} (h : sequenced c s = .next t) : Transition c s t := by
  cases ha : acceptEvent s with
  | true =>
    rw [sequenced_accept c ha] at h
    rcases acceptWith_cases c _ _ s t (cmdReady_of_acceptEvent ha) h with
      ⟨op, rfl⟩ | ⟨op, rfl⟩ | ⟨op, rfl⟩ | ⟨op, rfl⟩
    · exact .wait (idle_of_acceptEvent ha) fun _ => op
    · exact .setkey ha op
    · exact .encrypt ha op
    · exact .decrypt ha op
  | false =>
    cases hp : s.ph <;>
      simp only [sequenced, hp, ha, Bool.false_eq_true, if_false, Host.Outcome.next.injEq] at h <;> subst h
    case idle => exact .wait hp (by simp [ha])
    case round => exact .round hp
    case final => exact .final hp
    case resp =>
      cases hr : respondEvent s
      · exact .hold hp hr
      · exact .respond hp hr

/-- Every transition of R152 is a move of the sequencer. -/
theorem sequenced_of_transition {c : Cfg} {s t : State} (h : Transition c s t) : sequenced c s = .next t := by
  cases h with
  | wait idle nop =>
    by_cases ha : acceptEvent s = true
    · simp [sequenced_accept c ha, acceptWith, nop ha, nopWith, whenReady]
    · simp [sequenced, idle, ha]
  | setkey ha op => simp [sequenced_accept c ha, acceptWith, op, setkeyWith, whenReady, cmdReady_of_acceptEvent ha]
  | encrypt ha op => simp [sequenced_accept c ha, acceptWith, op, encryptWith, whenReady, cmdReady_of_acceptEvent ha]
  | decrypt ha op => simp [sequenced_accept c ha, acceptWith, op, decryptWith, whenReady, cmdReady_of_acceptEvent ha]
  | round hp => simp [sequenced, hp, roundWork]
  | final hp => simp [sequenced, hp]
  | respond hp hr => simp [sequenced, hp, hr]
  | hold hp hr => simp [sequenced, hp, hr]

theorem sequenced_iff_transition (c : Cfg) (s t : State) : sequenced c s = .next t ↔ Transition c s t :=
  ⟨transition_of_sequenced, sequenced_of_transition⟩

/-- What one step of the machine answers, by the kind of its edge: a unit operation run alone, a reset, or a transition
of the sequencer and the tick. -/
theorem step_next_iff (s t : State) : step s = .next t ↔
    (∃ b, s.unitSel = some b ∧ t = { s with unitOut := unitValue installed b s.unitIn, unitSel := none }) ∨
    (s.unitSel = none ∧ (inputs s).rst = true ∧ t = tick (resetEdge s)) ∨
    (s.unitSel = none ∧ (inputs s).rst = false ∧ ∃ u, Transition installed s u ∧ t = tick u) := by
  rw [step_eq_stepWith]
  rcases step_cases installed s with ⟨b, hu, h⟩ | ⟨hu, hr, h⟩ | ⟨hu, hr, v, hv, h⟩
  · simp [h, hu, @eq_comm _ t]
  · simp [h, hu, hr, @eq_comm _ t]
  · simp [h, hu, hr, ← sequenced_iff_transition, hv, @eq_comm _ t]

end Sys2Proof.Machine
end

section
/-! The step and the status outputs: what a step adds to the instruction it runs, and what the outputs show. -/

namespace Sys2Proof.Machine

/-- An instruction run while no unit operation is presented is followed by a tick (log 5, 6). -/
theorem step_eq_tick {s t : State} (hu : s.unitSel = none) (hr : (inputs s).rst = false)
    (h : exec (fetch s) s = .next t) : step s = .next (tick t) := by
  rw [exec_eq_execWith] at h
  obtain ⟨-, -, htu, -⟩ := execWith_keeps installed (fetch s) s t h
  rw [step_eq_stepWith, stepWith_run installed s (by simp [resetAsserted, hr]), h]
  simp [retire, htu, hu]

/-- A unit operation run alone is followed by the clearing of its selector (log 9). -/
theorem step_eq_unit_done {s t : State} (hu : s.unitSel.isSome = true) (h : exec (fetch s) s = .next t) :
    step s = .next { t with unitSel := none } := by
  obtain ⟨b, hb⟩ := Option.isSome_iff_exists.mp hu
  rw [exec_eq_execWith] at h
  obtain ⟨-, -, htu, -⟩ := execWith_keeps installed (fetch s) s t h
  rw [step_eq_stepWith, stepWith_run installed s (by simp [resetAsserted, hb]), h]
  simp [retire, htu, hb]

/-- Settles O8: no instruction writes the ports, the counter or the selector, so the step ends as they tell. -/
theorem stepRunsTheFetchedInstruction : Obligations.StepRunsTheFetchedInstruction := by
  unfold Obligations.StepRunsTheFetchedInstruction
  rintro s i rfl
  refine ⟨fun hu hr t ht => ?_, fun hu t ht => step_eq_unit_done hu ht⟩
  obtain ⟨hports, hdraw, -⟩ := execWith_keeps installed (fetch s) s t (exec_eq_execWith (fetch s) s ▸ ht)
  rw [step_eq_tick hu hr ht, tick, hports, hdraw]

theorem busy_iff (s : State) : busy s = true ↔ s.ph ≠ .idle := by simp [busy]

theorem keyValid_iff (s : State) : keyValid s = true ↔ s.kv = true := Iff.rfl

theorem rspValid_iff (s : State) : rspValid s = true ↔ s.ph = .resp := by simp [rspValid]

theorem cmdReady_iff (s : State) : cmdReady s = true ↔ s.ph = .idle ∧ (inputs s).rst = false := by simp [cmdReady]

/-- Settles O16, output by output. -/
theorem statusOutputs : Obligations.StatusOutputs := by
  unfold Obligations.StatusOutputs
  exact fun s => ⟨busy_iff s, keyValid_iff s, rspValid_iff s, cmdReady_iff s⟩

/-- Settles O15: the reset values by definition, and the outputs by R30. -/
theorem resetValues : Obligations.ResetValues := by
  unfold Obligations.ResetValues
  refine ⟨rfl, rfl, fun s hp hk hr => ⟨(cmdReady_iff s).mpr ⟨hp, hr⟩, ?_, hk, ?_⟩⟩
  · simpa [hp] using busy_iff s
  · simpa [hp] using rspValid_iff s

end Sys2Proof.Machine
end

section
/-! The frames of the instructions and of the key register (R37). -/

namespace Sys2Proof.Machine

/-- A command has its effect or none (R140). -/
theorem whenReady_next {s t u : State} (h : whenReady s t = .next u) : u = t ∨ u = s := by
  rw [whenReady_eq, Host.Outcome.next.injEq] at h
  split at h
  · exact .inl h.symm
  · exact .inr h.symm

/-- A next state of `NOP` is the same state (R144). -/
theorem exec_nop_next {s t : State} {d : Block} (h : exec (.nop d) s = .next t) : t = s :=
  (whenReady_next h).elim id id

/-- A next state of `SETKEY` (R141). -/
theorem exec_setkey_next {s t : State} {key : MasterKey} (h : exec (.setkey key) s = .next t) :
    t = { s with keyreg := selectPc1 installed key, kv := true } ∨ t = s :=
  whenReady_next h

/-- A next state of a block command (R145, R146). -/
theorem exec_block_next {i : Instr} {s t : State} {block : Block} (hi : i = .encrypt block ∨ i = .decrypt block)
    (h : exec i s = .next t) : (∃ dir w, t = startBlock dir w s) ∨ t = s := by
  rcases hi with rfl | rfl <;> exact (whenReady_next h).imp_left fun ht => ⟨_, _, ht⟩

/-- `STEP.WAIT` is the move of the idle sequencer (R76, R152). -/
theorem exec_stepWait_next {s t : State} {d : Bool} {r : RoundIdx} (h : exec (.stepWait d r) s = .next t) :
    s.ph = .idle ∧ Transition installed s t := by
  simp only [exec, execStepWait, stepWaitWith] at h
  split at h
  · next hp =>
      refine ⟨hp, transition_of_sequenced ?_⟩
      simpa only [sequenced, hp] using h
  · cases h

/-- A next state of a round step (R147, R148). -/
theorem exec_stepRound_next {s t : State} {r : RoundIdx}
    (h : exec (.stepRoundEnc r) s = .next t ∨ exec (.stepRoundDec r) s = .next t) : ∃ w, t = advanceRound w s := by
  rcases h with h | h <;> exact ⟨_, (whenSelected_next.mp h).2.symm⟩

/-- A next state of `STEP.FINAL` (R149). -/
theorem exec_stepFinal_next {s t : State} {d : Bool} {r : RoundIdx} (h : exec (.stepFinal d r) s = .next t) :
    t = { s with dout := finalBlock installed s.work, ph := .resp } :=
  (whenSelected_next.mp h).2.symm

/-- A next state of `STEP.RESPOND` (R150). -/
theorem exec_stepRespond_next {s t : State} {d : Bool} {r : RoundIdx} (h : exec (.stepRespond d r) s = .next t) :
    t = { s with taken := s.taken ++ [rspData s], ph := .idle } ∨ t = s := by
  obtain ⟨-, ht⟩ := whenSelected_next.mp h
  split at ht
  · exact .inl ht.symm
  · exact .inr ht.symm

/-- A transition of the idle sequencer writes neither the result nor any field of the model's own. -/
theorem Transition.idle_frame {c : Cfg} {s t : State} (h : Transition c s t) (idle : s.ph = .idle) :
    t.dout = s.dout ∧ t.ports = s.ports ∧ t.taken = s.taken ∧ t.draw = s.draw ∧
    t.unitSel = s.unitSel ∧ t.unitIn = s.unitIn ∧ t.unitOut = s.unitOut := by
  cases h with
  | wait | setkey | encrypt | decrypt | hold => simp
  | round inRound => simp [idle] at inRound
  | final inFinal => simp [idle] at inFinal
  | respond inResp => simp [idle] at inResp

/-- Settles O22: each command has its one effect, or none where the engine is not ready. -/
theorem nopAndSetkeyFrame : Obligations.NopAndSetkeyFrame := by
  unfold Obligations.NopAndSetkeyFrame
  refine ⟨fun s t d h => exec_nop_next h, fun s t key h => ?_⟩
  rcases exec_setkey_next h with rfl | rfl <;> simp

/-- Settles O23: an accept step writes what `startBlock` writes, or nothing where the engine is not ready. -/
theorem blockAcceptFrame : Obligations.BlockAcceptFrame := by
  unfold Obligations.BlockAcceptFrame
  intro i s t block hi h
  rcases exec_block_next hi h with ⟨dir, w, rfl⟩ | rfl <;> simp

/-- Settles O30, step by step from what each step can answer. -/
theorem sequencerStepFrame : Obligations.SequencerStepFrame := by
  unfold Obligations.SequencerStepFrame
  intro s t d r
  refine ⟨fun h => ?_, fun h => ?_, fun h => ?_, fun h => ?_⟩
  · obtain ⟨idle, ht⟩ := exec_stepWait_next h
    exact ht.idle_frame idle
  · obtain ⟨w, rfl⟩ := exec_stepRound_next h
    simp
  · obtain rfl := exec_stepFinal_next h
    simp
  · rcases exec_stepRespond_next h with rfl | rfl <;> simp

/-- A transition of the sequencer leaves `KEYREG` and `KV` alone, unless it is the accept of a `SETKEY` (R21, R22). -/
theorem Transition.key_written_by_setkey {c : Cfg} {s t : State} (h : Transition c s t) :
    (acceptEvent s = true ∧ (inputs s).cmdOp = 0b01#2 ∧
      t.keyreg = selectPc1 c (inputs s).cmdData ∧ t.kv = true) ∨
    (t.keyreg = s.keyreg ∧ t.kv = s.kv) := by
  cases h with
  | setkey accepted op => exact .inl ⟨accepted, op, rfl, rfl⟩
  | wait | encrypt | decrypt | round | final | respond | hold => exact .inr (by simp)

/-- Settles O52, by the kind of the edge. -/
theorem keyRegisterWrittenOnlyBySetkey : Obligations.KeyRegisterWrittenOnlyBySetkey := by
  unfold Obligations.KeyRegisterWrittenOnlyBySetkey
  intro s t h
  rcases (step_next_iff s t).mp h with ⟨b, -, rfl⟩ | ⟨hu, hr, rfl⟩ | ⟨hu, -, u, hu', rfl⟩
  · exact .inr (.inl ⟨rfl, rfl⟩)
  · exact .inr (.inr ⟨hu, hr, rfl, rfl⟩)
  · rcases hu'.key_written_by_setkey with ⟨ha, op, hk, hv⟩ | same
    · exact .inl ⟨hu, ha, op, hk, hv⟩
    · exact .inr (.inl same)

end Sys2Proof.Machine
end

section
/-! The rotations of the key halves compose, and what the rounds of a command turn them by (R110 to R117, R121). -/

namespace Sys2Proof.Machine

/-- No rotation (R110). -/
theorem rotl28_zero (x : KeyHalf) : rotl28 x 0 = x := by
  apply BitVec.eq_of_getLsbD_eq
  intro i hi
  rw [rotl28_bit x 0 i (by omega)]
  simp [hi]

/-- A whole turn (R110, R121). -/
theorem rotl28_whole (x : KeyHalf) : rotl28 x 28 = x := by
  apply BitVec.eq_of_getLsbD_eq
  intro i hi
  rw [rotl28_bit x 28 i (by omega)]
  simp [hi]

/-- Left rotations add up, within a whole turn (R110). -/
theorem rotl28_rotl28 (x : KeyHalf) {m n : Nat} (h : m + n ≤ 28) : rotl28 (rotl28 x m) n = rotl28 x (m + n) := by
  apply BitVec.eq_of_getLsbD_eq
  intro i hi
  rw [rotl28_bit _ n i (by omega), rotl28_bit x (m + n) i h]
  by_cases hin : i < n
  · rw [rotl28_bit x m (28 - n + i) (by omega)]
    have hm : ¬ 28 - n + i < m := by omega
    have hb : 28 - n + i - m = 28 - (m + n) + i := by omega
    have hs : 28 - n + i < 28 := by omega
    have hmn : i < m + n := by omega
    simp only [hi, hin, hm, hb, hs, hmn, if_true, if_false, decide_true, Bool.true_and]
  · rw [rotl28_bit x m (i - n) (by omega)]
    have hs : i - n < 28 := by omega
    have hiff : i - n < m ↔ i < m + n := by omega
    have hlow : 28 - m + (i - n) = 28 - (m + n) + i := by omega
    have hhigh : i - n - m = i - (m + n) := by omega
    simp only [hi, hin, hs, hiff, hlow, hhigh, if_false, decide_true, Bool.true_and]

/-- A right rotation takes back a part of a left rotation (R110, R111). -/
theorem rotr28_rotl28 (x : KeyHalf) {m n : Nat} (hn : n ≤ m) (hm : m ≤ 28) :
    rotr28 (rotl28 x m) n = rotl28 x (m - n) := by
  apply BitVec.eq_of_getLsbD_eq
  intro i hi
  rw [rotr28_bit _ n i (by omega), rotl28_bit x (m - n) i (by omega)]
  by_cases hin : i < 28 - n
  · rw [rotl28_bit x m (n + i) hm]
    have hs : n + i < 28 := by omega
    have hiff : n + i < m ↔ i < m - n := by omega
    have hlow : 28 - m + (n + i) = 28 - (m - n) + i := by omega
    have hhigh : n + i - m = i - (m - n) := by omega
    simp only [hi, hin, hs, hiff, hlow, hhigh, if_true, decide_true, Bool.true_and]
  · rw [rotl28_bit x m (i - (28 - n)) hm]
    have hs : i - (28 - n) < 28 := by omega
    have hlt : i - (28 - n) < m := by omega
    have hnot : ¬ i < m - n := by omega
    have hb : 28 - m + (i - (28 - n)) = i - (m - n) := by omega
    simp only [hi, hin, hs, hlt, hnot, hb, if_true, if_false, decide_true, Bool.true_and]

/-- `KS.FWD` over a list of rounds turns the halves by the sum of their amounts, within a whole turn (R113). -/
theorem foldl_ksFwd (c : Cfg) (rounds : List Nat) (w : Work) (h : (rounds.map (rotAmount c)).sum ≤ 28) :
    rounds.foldl (fun w j => ksFwd c j w) w = turnLeft (rounds.map (rotAmount c)).sum w := by
  induction rounds generalizing w with
  | nil => simp [turnLeft, rotl28_zero]
  | cons j js ih =>
    rw [List.map_cons, List.sum_cons] at h
    rw [List.foldl_cons, ih _ (by omega)]
    simp [ksFwd, turnLeft, rotl28_rotl28 _ h]

/-- The sixteen rotation amounts of any configuration (R100). -/
theorem map_rotAmount (c : Cfg) : (List.range 16).map (rotAmount c) = roundShift := by
  rw [funext (rotAmount_eq c)]
  decide

/-- The pre-rotation is a whole turn, and so the identity (R114, R121). -/
theorem ksPrerot_eq (c : Cfg) (w : Work) : ksPrerot c w = w := by
  have hsum : ((List.range 16).map (rotAmount c)).sum = 28 := by
    rw [map_rotAmount]
    decide
  rw [ksPrerot, foldl_ksFwd c _ w (by omega), hsum]
  simp [turnLeft, rotl28_whole]

end Sys2Proof.Machine
end

section
/-! The invariants: each holds where nothing is in progress, and each is kept by every edge (R26, R117, R149, R151). -/

namespace Sys2Proof.Machine

open Safety

/-- The key halves of the working registers are those of `k` rotated left by `n` places. -/
def halvesTurned (k : PermKey) (n : Nat) (w : Work) : Prop :=
  w.kh0 = rotl28 (firstKeyHalf k) n ∧ w.kh1 = rotl28 (secondKeyHalf k) n

/-- The invariant of the key halves, said of the working registers. -/
theorem keyHalvesFollow_iff (s : State) : keyHalvesFollow s ↔
    (s.kv = true → s.ph ≠ .idle → halvesTurned s.keyreg (turned s.dir (roundsDone s)) s.work) := Iff.rfl

/-- The running sum for `ENCRYPT` grows by the amount of the round, within a whole turn (R117). -/
theorem turned_enc_succ (c : Cfg) {n : Nat} (hn : n < 16) :
    turned false n + rotAmount c n ≤ 28 ∧ turned false (n + 1) = turned false n + rotAmount c n := by
  rw [rotAmount_eq]
  revert n
  decide

/-- The first round of `DECRYPT` turns nothing back (R115, R117). -/
theorem turned_dec_one : turned true 1 = turned true 0 := by decide

/-- Every later round of `DECRYPT` takes one amount back (R115, R117). -/
theorem turned_dec_succ (c : Cfg) {n : Nat} (hn : n < 16) (h0 : n ≠ 0) :
    rotAmount c (16 - n) ≤ turned true n ∧ turned true (n + 1) = turned true n - rotAmount c (16 - n) := by
  rw [rotAmount_eq]
  revert n
  decide

theorem turned_le (dir : Bool) {n : Nat} (hn : n < 16) : turned dir n ≤ 28 := by
  revert dir n
  decide

/-- A round of `ENCRYPT` turns the halves on (R113, R147). -/
theorem encRound_halvesTurned (c : Cfg) {k : PermKey} {n : Nat} {w : Work} (hn : n < 16)
    (h : halvesTurned k (turned false n) w) : halvesTurned k (turned false (n + 1)) (encRound c n w) := by
  obtain ⟨hle, hsucc⟩ := turned_enc_succ c hn
  obtain ⟨h0, h1⟩ := h
  rw [hsucc]
  constructor
  · rw [← rotl28_rotl28 _ hle, ← h0]; rfl
  · rw [← rotl28_rotl28 _ hle, ← h1]; rfl

/-- A round of `DECRYPT` turns the halves back (R115, R148). -/
theorem decRound_halvesTurned (c : Cfg) {k : PermKey} {n : Nat} {w : Work} (hn : n < 16)
    (h : halvesTurned k (turned true n) w) : halvesTurned k (turned true (n + 1)) (decRound c n w) := by
  by_cases hn0 : n = 0
  · subst hn0
    rw [turned_dec_one]
    exact h
  · obtain ⟨hle, hsucc⟩ := turned_dec_succ c hn hn0
    obtain ⟨h0, h1⟩ := h
    have hrev : ksRev c n w = turnRight (rotAmount c (16 - n)) w := by simp [ksRev, hn0]
    rw [hsucc, decRound, hrev]
    constructor
    · rw [← rotr28_rotl28 _ hle (turned_le true hn), ← h0]; rfl
    · rw [← rotr28_rotl28 _ hle (turned_le true hn), ← h1]; rfl

/-- The round step of the sequencer turns the halves by its round (R147, R148). -/
theorem roundWork_halvesTurned (c : Cfg) {k : PermKey} {s : State}
    (h : halvesTurned k (turned s.dir s.rnd.toNat) s.work) :
    halvesTurned k (turned s.dir (s.rnd.toNat + 1)) (roundWork c s) := by
  have hlt : s.rnd.toNat < 16 := s.rnd.isLt
  unfold roundWork
  cases hd : s.dir <;> rw [hd] at h
  · exact encRound_halvesTurned c hlt h
  · exact decRound_halvesTurned c hlt h

/-- The halves as loaded stand where both commands start them (R112, R121). -/
theorem ksLoad_halvesTurned (k : PermKey) (x : Block) (dir : Bool) : halvesTurned k (turned dir 0) (ksLoad k x) := by
  have hstart : turned dir 0 = if dir then 28 else 0 := by cases dir <;> decide
  rw [hstart]
  cases dir
  · exact ⟨(rotl28_zero _).symm, (rotl28_zero _).symm⟩
  · exact ⟨(rotl28_whole _).symm, (rotl28_whole _).symm⟩

/-- The start of `DECRYPT` is that of `ENCRYPT` (R121). -/
theorem decStart_eq (c : Cfg) (k : PermKey) (block : Block) : decStart c k block = ksLoad k (selectIp c block) :=
  ksPrerot_eq c _

/-- A round step does one round more, the last one included (R147, R148). -/
theorem roundsDone_advanceRound (w : Work) {s : State} (hp : s.ph = .round) :
    roundsDone (advanceRound w s) = s.rnd.toNat + 1 := by
  by_cases h15 : s.rnd = 15#4
  · simp [roundsDone, h15]
  · have hlt : s.rnd.toNat < 15 := by
      have : s.rnd.toNat ≠ 15 := fun h => h15 (BitVec.eq_of_toNat_eq h)
      omega
    simp only [roundsDone, advanceRound_ph, advanceRound_rnd, h15, hp, if_false, BitVec.toNat_add]
    simp
    omega

/-- The accept of a block command starts the halves of the key it reads, which is `KEYREG` while `KV = 1`. -/
theorem startBlock_keyHalvesFollow (s : State) (dir : Bool) (x : Block) :
    keyHalvesFollow (startBlock dir (ksLoad (keyRead s) x) s) := by
  intro hkv _
  rw [startBlock_kv] at hkv
  have hkey : keyRead s = s.keyreg := by simp [keyRead, hkv]
  rw [hkey]
  exact ksLoad_halvesTurned s.keyreg x dir

/-- Every transition keeps the key halves at what the rounds done amount to (R117). -/
theorem Transition.keyHalvesFollow {c : Cfg} {s t : State} (h : Transition c s t) (hs : keyHalvesFollow s) :
    keyHalvesFollow t := by
  cases h with
  | wait | hold => exact hs
  | setkey accepted => exact fun _ busy => absurd (idle_of_acceptEvent accepted) busy
  | encrypt => exact startBlock_keyHalvesFollow s false _
  | decrypt => rw [decStart_eq]; exact startBlock_keyHalvesFollow s true _
  | round inRound =>
    rw [keyHalvesFollow_iff]
    intro hkv _
    rw [advanceRound_kv] at hkv
    have before : halvesTurned s.keyreg (turned s.dir (roundsDone s)) s.work := hs hkv (by simp [inRound])
    have hdone : roundsDone s = s.rnd.toNat := by simp [roundsDone, inRound]
    rw [hdone] at before
    rw [advanceRound_keyreg, advanceRound_dir, advanceRound_work, roundsDone_advanceRound _ inRound]
    exact roundWork_halvesTurned c before
  | final inFinal =>
    intro hkv _
    simpa [roundsDone, inFinal] using hs hkv (by simp [inFinal])
  | respond => exact fun _ busy => absurd rfl busy

/-- Every transition keeps `RND` at 15 after the rounds (R26). -/
theorem Transition.roundIndexLeft {c : Cfg} {s t : State} (h : Transition c s t) (hs : roundIndexLeft s) :
    roundIndexLeft t := by
  cases h with
  | wait | hold => exact hs
  | setkey accepted => exact hs
  | encrypt | decrypt => intro h; simp at h
  | round inRound =>
    intro h
    by_cases h15 : s.rnd = 15#4
    · simp [h15]
    · simp [h15, inRound] at h
  | final inFinal => exact fun _ => hs (.inl inFinal)
  | respond => intro h; simp at h

/-- Every transition keeps a waiting result at FP of the crossed halves (R149, R151). -/
theorem Transition.resultFollows {s t : State} (h : Transition installed s t) (hs : resultFollows s) :
    resultFollows t := by
  cases h with
  | wait | hold => exact hs
  | setkey accepted => intro h; simp [idle_of_acceptEvent accepted] at h
  | encrypt | decrypt => intro h; simp at h
  | round inRound => intro h; by_cases h15 : s.rnd = 15#4 <;> simp [h15, inRound] at h
  | final => exact fun _ => rfl
  | respond => intro h; simp at h

/-- An idle engine meets the invariants, whatever its registers hold. -/
theorem inv_of_idle {s : State} (hp : s.ph = .idle) : inv s :=
  ⟨fun _ busy => absurd hp busy, fun h => by simp [hp] at h, fun h => by simp [hp] at h⟩

/-- The end of a step writes no register that the invariants speak of. -/
theorem inv_tick (s : State) : inv (tick s) ↔ inv s := Iff.rfl

/-- Settles O56: nothing is in progress in IDLE. -/
theorem invariantsHoldAfterReset : Obligations.InvariantsHoldAfterReset := by
  unfold Obligations.InvariantsHoldAfterReset
  exact ⟨inv_of_idle rfl, fun s hp _ => inv_of_idle hp⟩

/-- Settles O55, by the kind of the edge: a unit operation and a tick write no register the invariants speak of, a
reset leaves the engine idle, and each invariant is kept by each transition. -/
theorem invariantsKeptByEveryStep : Obligations.InvariantsKeptByEveryStep := by
  unfold Obligations.InvariantsKeptByEveryStep
  intro s t hs h
  rcases (step_next_iff s t).mp h with ⟨b, -, rfl⟩ | ⟨-, -, rfl⟩ | ⟨-, -, u, hu, rfl⟩
  · exact hs
  · exact inv_of_idle rfl
  · obtain ⟨hkey, hrnd, hres⟩ := hs
    exact (inv_tick u).mpr ⟨hu.keyHalvesFollow hkey, hu.roundIndexLeft hrnd, hu.resultFollows hres⟩

end Sys2Proof.Machine
end

section
/-! Left-over values are never seen (R32, R155): states with the same view show the same outputs, and every edge of one
is simulated by an edge of the other. -/

namespace Sys2Proof.Machine

open Safety

/-- The inputs are read off the host's levels alone. -/
theorem inputs_congr {s t : State} (h : s.ports = t.ports) : inputs s = inputs t := congrArg (List.headD · _) h

/-- The accept event is read off the phase and the ports (R140). -/
theorem acceptEvent_congr {s t : State} (hph : s.ph = t.ph) (hports : s.ports = t.ports) :
    acceptEvent s = acceptEvent t := by
  simp only [acceptEvent, cmdReady, hph, inputs_congr hports]

/-- The respond event is read off the ports (R150). -/
theorem respondEvent_congr {s t : State} (hports : s.ports = t.ports) : respondEvent s = respondEvent t := by
  simp only [respondEvent, inputs_congr hports]

/-- The outputs of two states with the same view are the same (R30, R32). -/
theorem outputs_eq_of_sameView {s t : State} (hv : sameView s t) : outputs s = outputs t := by
  obtain ⟨hph, hkv, -, hports, -, hdraw, -, -, -, -, -, hresp⟩ := hv
  have hdata : rspData s = rspData t := by
    by_cases hp : s.ph = .resp
    · simp [rspData, rspValid, ← hph, hp, hresp hp]
    · simp [rspData, rspValid, ← hph, hp, hdraw]
  simp only [outputs, cmdReady, busy, keyValid, rspValid, hdata, hph, hkv, inputs_congr hports]

/-- The same accept step in two states with the same view leaves two such states. -/
theorem startBlock_sameView {s t : State} (dir : Bool) (w : Work) (hv : sameView s t) :
    sameView (startBlock dir w s) (startBlock dir w t) := by
  obtain ⟨-, hkv, hkey, hports, htaken, hdraw, hsel, hin, hout, -⟩ := hv
  exact ⟨rfl, hkv, hkey, hports, htaken, hdraw, hsel, hin, hout, fun _ => ⟨rfl, rfl, rfl⟩, fun h => by simp at h,
    fun h => by simp at h⟩

/-- The same round step in two states with the same view leaves two such states (R147, R148). -/
theorem advanceRound_sameView {s t : State} (w : Work) (hp : s.ph = .round) (hv : sameView s t) :
    sameView (advanceRound w s) (advanceRound w t) := by
  obtain ⟨hph, hkv, hkey, hports, htaken, hdraw, hsel, hin, hout, hround, -⟩ := hv
  obtain ⟨-, hrnd, hdir⟩ := hround hp
  have hresp : (advanceRound w s).ph ≠ .resp := by
    rw [advanceRound_ph, hp]
    split <;> simp
  refine ⟨by simp [hph, hrnd], by simpa using hkv, by simpa using hkey, by simpa using hports, by simpa using htaken,
    by simpa using hdraw, by simpa using hsel, by simpa using hin, by simpa using hout, fun _ => ?_, fun _ => by simp,
    fun h => absurd h hresp⟩
  simp [hrnd, hdir]

/-- A round works on what two states in a round with the same view have in common. -/
theorem roundWork_congr (c : Cfg) {s t : State} (hp : s.ph = .round) (hv : sameView s t) :
    roundWork c s = roundWork c t := by
  obtain ⟨-, -, -, -, -, -, -, -, -, hround, -⟩ := hv
  obtain ⟨hwork, hrnd, hdir⟩ := hround hp
  simp only [roundWork, hwork, hrnd, hdir]

/-- The result is read off the block halves alone (R149, R151). -/
theorem finalBlock_congr (c : Cfg) {v w : Work} (hl : v.l = w.l) (hr : v.r = w.r) :
    finalBlock c v = finalBlock c w := by
  simp only [finalBlock, hl, hr]

/-- The end of a step keeps the view the same. -/
theorem tick_sameView {s t : State} (hv : sameView s t) : sameView (tick s) (tick t) := by
  obtain ⟨hph, hkv, hkey, hports, htaken, hdraw, hsel, hin, hout, hwork⟩ := hv
  exact ⟨hph, hkv, hkey, congrArg List.tail hports, htaken, congrArg (· + 1) hdraw, hsel, hin, hout, hwork⟩

/-- A reset edge keeps the view the same, with no key left to see (R190). -/
theorem resetEdge_sameView {s t : State} (hv : sameView s t) : sameView (resetEdge s) (resetEdge t) := by
  obtain ⟨-, -, -, hports, htaken, hdraw, hsel, hin, hout, -⟩ := hv
  exact ⟨rfl, rfl, fun h => by simp at h, hports, htaken, hdraw, hsel, hin, hout, fun h => by simp at h,
    fun h => by simp at h, fun h => by simp at h⟩

/-- The same unit operation run alone keeps the view the same (log 9). -/
theorem unitDone_sameView {s t : State} (c : Cfg) (b : BitVec 3) (hv : sameView s t) :
    sameView { s with unitOut := unitValue c b s.unitIn, unitSel := none }
      { t with unitOut := unitValue c b t.unitIn, unitSel := none } := by
  obtain ⟨hph, hkv, hkey, hports, htaken, hdraw, -, hin, -, hwork⟩ := hv
  exact ⟨hph, hkv, hkey, hports, htaken, hdraw, rfl, hin, congrArg (unitValue c b) hin, hwork⟩

/-- Where a block command is accepted, two states with the same view read the same key: `KEYREG` while `KV = 1`, and
without a key only where the host breaks its duty, the free value of equal registers (R192; log 3). -/
theorem keyRead_congr {s t : State} (hv : sameView s t) (hk : s.keyreg = t.keyreg ∨ hostDuty s = true)
    (ha : acceptEvent s = true) (hop : (inputs s).cmdOp = 0b10#2 ∨ (inputs s).cmdOp = 0b11#2) :
    keyRead s = keyRead t := by
  obtain ⟨-, hkv, hkey, -, -, hdraw, -⟩ := hv
  have heq : s.keyreg = t.keyreg := by
    rcases hk with heq | hduty
    · exact heq
    · apply hkey
      by_contra hno
      obtain ⟨hrst, hvalid, idle⟩ := (acceptEvent_iff s).mp ha
      have hbreak : acceptsWithoutKey s = true :=
        (acceptsWithoutKey_iff s).mpr ⟨hrst, hvalid, idle, by simpa using hno, hop⟩
      simp [hostDuty, hbreak] at hduty
  simp only [keyRead, hkv, heq, hdraw]

/-- Each transition of a state is simulated by the same transition of a state with the same view. -/
theorem Transition.simulated {c : Cfg} {s t s' : State} (h : Transition c s s') (hv : sameView s t)
    (hk : s.keyreg = t.keyreg ∨ hostDuty s = true) :
    ∃ t', Transition c t t' ∧ sameView s' t' ∧ (s.keyreg = t.keyreg → s'.keyreg = t'.keyreg) := by
  obtain ⟨hph, hkv, hkey, hports, htaken, hdraw, hsel, hin, hout, hround, hfinal, hresp⟩ := id hv
  have hi : inputs s = inputs t := inputs_congr hports
  have haccept : acceptEvent s = acceptEvent t := acceptEvent_congr hph hports
  have hrespond : respondEvent s = respondEvent t := respondEvent_congr hports
  cases h with
  | wait idle nop => exact ⟨t, .wait (hph ▸ idle) (by rwa [← haccept, ← hi]), hv, id⟩
  | setkey ha hop =>
    have idle : s.ph = .idle := idle_of_acceptEvent ha
    have hnew : selectPc1 c (inputs s).cmdData = selectPc1 c (inputs t).cmdData := by rw [hi]
    refine ⟨_, .setkey (haccept ▸ ha) (hi ▸ hop), ?_, fun _ => hnew⟩
    exact ⟨hph, rfl, fun _ => hnew, hports, htaken, hdraw, hsel, hin, hout, hround, hfinal, hresp⟩
  | encrypt ha hop =>
    refine ⟨_, .encrypt (haccept ▸ ha) (hi ▸ hop), ?_, id⟩
    rw [keyRead_congr hv hk ha (.inl hop), hi]
    exact startBlock_sameView false _ hv
  | decrypt ha hop =>
    refine ⟨_, .decrypt (haccept ▸ ha) (hi ▸ hop), ?_, id⟩
    rw [keyRead_congr hv hk ha (.inr hop), hi]
    exact startBlock_sameView true _ hv
  | round inRound =>
    refine ⟨_, .round (hph ▸ inRound), ?_, by simp⟩
    rw [roundWork_congr c inRound hv]
    exact advanceRound_sameView _ inRound hv
  | final inFinal =>
    obtain ⟨hl, hr⟩ := hfinal inFinal
    refine ⟨_, .final (hph ▸ inFinal), ?_, id⟩
    exact ⟨rfl, hkv, hkey, hports, htaken, hdraw, hsel, hin, hout, fun h => by simp at h, fun h => by simp at h,
      fun _ => finalBlock_congr c hl hr⟩
  | respond inResp taken =>
    have hlist : s.taken ++ [s.dout] = t.taken ++ [t.dout] := by rw [htaken, hresp inResp]
    refine ⟨_, .respond (hph ▸ inResp) (hrespond ▸ taken), ?_, id⟩
    exact ⟨rfl, hkv, hkey, hports, hlist, hdraw, hsel, hin, hout, fun h => by simp at h, fun h => by simp at h,
      fun h => by simp at h⟩
  | hold inResp untaken => exact ⟨t, .hold (hph ▸ inResp) (hrespond ▸ untaken), hv, id⟩

/-- Every state has a next one (R170). -/
theorem step_has_next (s : State) : ∃ t, step s = .next t := by
  rw [step_eq_stepWith]
  rcases step_cases installed s with ⟨_, -, h⟩ | ⟨-, -, h⟩ | ⟨-, -, _, -, h⟩ <;> exact ⟨_, h⟩

/-- Each step of a state is simulated by a step of a state with the same view, edge by edge. -/
theorem step_simulated {s t s' : State} (h : step s = .next s') (hv : sameView s t)
    (hk : s.keyreg = t.keyreg ∨ hostDuty s = true) :
    ∃ t', step t = .next t' ∧ sameView s' t' ∧ (s.keyreg = t.keyreg → s'.keyreg = t'.keyreg) := by
  obtain ⟨-, -, -, hports, -, -, hsel, -⟩ := id hv
  have hi : inputs s = inputs t := inputs_congr hports
  simp only [step_next_iff]
  rcases (step_next_iff s s').mp h with ⟨b, hb, rfl⟩ | ⟨hu, hr, rfl⟩ | ⟨hu, hr, u, hsu, rfl⟩
  · exact ⟨_, .inl ⟨b, hsel ▸ hb, rfl⟩, unitDone_sameView installed b hv, id⟩
  · exact ⟨_, .inr (.inl ⟨hsel ▸ hu, hi ▸ hr, rfl⟩), tick_sameView (resetEdge_sameView hv), id⟩
  · obtain ⟨u', htu, huv, hkey⟩ := hsu.simulated hv hk
    exact ⟨_, .inr (.inr ⟨hsel ▸ hu, hi ▸ hr, u', htu, rfl⟩), tick_sameView huv, hkey⟩

/-- Settles O50: equal views show equal outputs, and every step of the one is simulated by the other. -/
theorem leftOverValuesAreNeverSeen : Obligations.LeftOverValuesAreNeverSeen := by
  unfold Obligations.LeftOverValuesAreNeverSeen
  intro s t hv hk
  obtain ⟨s', hs⟩ := step_has_next s
  obtain ⟨t', ht, hv', hkey⟩ := step_simulated hs hv hk
  exact ⟨outputs_eq_of_sameView hv, s', t', hs, ht, hv', hkey⟩

end Sys2Proof.Machine
end

section
/-! The ROM reads (R52): what a read gives and where it gives nothing, the range and the stored width of an entry, the
bit an entry selects (R90), and the 9-bit address. -/

namespace Sys2Proof.Machine

/-- Bank 7 of a configuration holds the sixteen fixed amounts (R91 (e), R100). -/
theorem bankTable_roundShift (c : Cfg) : bankTable c.rom .roundShift = roundShift := by
  obtain ⟨-, -, -, -, h⟩ := c.wf
  exact h

/-- An entry of any bank lies in its legal range: R91 (c) for the selections, R100 for the amounts of bank 7. -/
theorem entry_range (c : Cfg) (b : Bank) {e : Nat} (he : e ∈ bankTable c.rom b) : 1 ≤ e ∧ e ≤ bankSource b := by
  by_cases hb : b = .roundShift
  · subst hb
    rw [bankTable_roundShift] at he
    have amounts : ∀ n ∈ roundShift, 1 ≤ n ∧ n ≤ bankSource .roundShift := by decide
    exact amounts e he
  · exact bank_range c b hb e he

theorem romRead_eq_none_iff (c : Cfg) (b : Bank) (i : Nat) : romRead c.rom b i = none ↔ bankLength b ≤ i := by
  rw [romRead, List.getElem?_eq_none_iff, bank_length]

theorem romRead_isSome_iff (c : Cfg) (b : Bank) (i : Nat) : (romRead c.rom b i).isSome = true ↔ i < bankLength b := by
  rw [← Option.ne_none_iff_isSome, ne_eq, romRead_eq_none_iff, not_le]

/-- The entry a read gives lies in the bank's legal range (R51, R91 (c)). -/
theorem romRead_range {c : Cfg} {b : Bank} {i e : Nat} (h : romRead c.rom b i = some e) :
    1 ≤ e ∧ e ≤ bankSource b :=
  entry_range c b (List.mem_of_getElem? h)

/-- Bit `i` of a bank's selection is the source bit that the entry read at `i` names (R52, R90). -/
theorem applyTable_romRead {n : Nat} {c : Cfg} {b : Bank} {i e : Nat} (h : romRead c.rom b i = some e) (v : BitVec n) :
    (applyTable (bankLength b) (bankTable c.rom b) v).getLsbD i = v.getLsbD (e - 1) := by
  have hi : i < bankLength b := (romRead_isSome_iff c b i).mp (by simp [h])
  have he : (bankTable c.rom b)[i]? = some e := h
  rw [applyTable_bit, he]
  simp [hi]

/-- A position in the range of any bank is held whole in the 7 bits of an entry (R78). -/
theorem positionBits_toNat {b : Bank} {e : Nat} (h : e ≤ bankSource b) : (positionBits e).toNat = e := by
  have hb : bankSource b ≤ 64 := by cases b <;> decide
  rw [positionBits, BitVec.toNat_ofNat, Nat.mod_eq_of_lt (by omega)]

/-- An amount in the range of bank 7 is held whole in 2 bits (R78). -/
theorem amountBits_toNat {e : Nat} (h : e ≤ bankSource .roundShift) : (amountBits e).toNat = e := by
  have hb : bankSource .roundShift = 2 := rfl
  rw [amountBits, BitVec.toNat_ofNat, Nat.mod_eq_of_lt (by omega)]

theorem bankOfNumber_bankNumber (b : Bank) : bankOfNumber (bankNumber b) = b := by cases b <;> rfl

/-- The value of the address `bank ‖ index` (R52). -/
theorem romAddress_toNat (b : Bank) (i : BitVec 6) :
    (romAddress b i).toNat = (bankNumber b).toNat * 64 + i.toNat := by
  rw [romAddress, BitVec.toNat_append, ← Nat.shiftLeft_add_eq_or_of_lt i.isLt, Nat.shiftLeft_eq]

/-- The read at an address is the read by its bank and index (R52). -/
theorem romReadAt_romAddress (t : RomImage) (b : Bank) (i : BitVec 6) :
    romReadAt t (romAddress b i) = romRead t b i.toNat := by
  rw [romReadAt, romAddress, append_upper, append_lower, bankOfNumber_bankNumber]

/-- Settles O37: inside the bank's length a read is its entry, which is in range and names the bit the selection puts
there; past it there is none; and the address splits back into bank and index. -/
theorem romReadByBankAndAddress : Obligations.RomReadByBankAndAddress := by
  unfold Obligations.RomReadByBankAndAddress
  intro c b
  refine ⟨fun i hi => ?entry, fun _ _ => applyTable_romRead, fun _ _ => applyTable_romRead,
    fun _ _ => applyTable_romRead, fun _ _ => applyTable_romRead, fun _ _ => applyTable_romRead,
    fun _ _ => applyTable_romRead, fun _ _ => applyTable_romRead, fun i => ?amounts, fun r => ?rounds,
    fun i => (romRead_eq_none_iff c b i).mpr, fun i => ⟨romAddress_toNat b i, romReadAt_romAddress c.rom b i⟩⟩
  case entry =>
    obtain ⟨e, he⟩ := Option.isSome_iff_exists.mp ((romRead_isSome_iff c b i).mpr hi)
    obtain ⟨hpos, hle⟩ := romRead_range he
    exact ⟨e, he, he, hpos, hle, fun _ => positionBits_toNat hle, fun hb => amountBits_toNat (hb ▸ hle)⟩
  case amounts => rw [romRead, bankTable_roundShift, roundShift]
  case rounds =>
    have hr : r.toNat < 16 := r.isLt
    have hlen : bankLength .roundShift = 16 := rfl
    simp only [romRead_isSome_iff, hlen]
    refine ⟨hr, fun hne => ?_⟩
    have hpos : r.toNat ≠ 0 := fun h => hne (BitVec.eq_of_toNat_eq h)
    omega

end Sys2Proof.Machine
end

section
/-! The encodings (R70, R71, R76, R77): the fields of the words of the three formats, and that the decoder and the
encoder are inverse to each other on words. -/

namespace Sys2Proof

/-- The four values of a 2-bit field: an opcode (R71) or a phase (R25). -/
theorem twoBit_cases (x : BitVec 2) : x = 0b00#2 ∨ x = 0b01#2 ∨ x = 0b10#2 ∨ x = 0b11#2 := by
  revert x
  decide

/-- The fields of a step selector `PH ‖ DIR ‖ RND` (R76). -/
theorem selector_fields (ph : BitVec 2) (d : Bool) (r : RoundIdx) :
    (ph ++ BitVec.ofBool d ++ r).extractLsb' 5 2 = ph ∧ (ph ++ BitVec.ofBool d ++ r).getLsbD 4 = d ∧
      (ph ++ BitVec.ofBool d ++ r).extractLsb' 0 4 = r := by
  refine ⟨?phase, ?dir, Machine.append_lower _ r⟩
  case phase =>
    rw [BitVec.extractLsb'_append_eq_of_le (by decide)]
    exact Machine.append_upper ph _
  case dir => simp only [BitVec.getLsbD_append, BitVec.getLsbD_ofBool]; simp

/-- Every 7-bit word is `PH ‖ DIR ‖ RND` of its fields (R76). -/
theorem selector_of_fields (w : BitVec 7) :
    w.extractLsb' 5 2 ++ BitVec.ofBool (w.getLsbD 4) ++ w.extractLsb' 0 4 = w := by
  revert w
  decide

/-- The command that an opcode and an operand name (R71). -/
theorem decodeCmd_append (op : BitVec 2) (d : Block) :
    decodeCmd (op ++ d) =
      if op = 0b00#2 then .nop d else if op = 0b01#2 then .setkey d else if op = 0b10#2 then .encrypt d
      else .decrypt d := by
  have hop : (op ++ d : BitVec 66).extractLsb' 64 2 = op := Machine.append_upper op d
  have hd : (op ++ d : BitVec 66).extractLsb' 0 64 = d := Machine.append_lower op d
  simp only [decodeCmd, hop, hd]

/-- The step that a phase, a direction and a round name (R76). -/
theorem decodeSeq_append (ph : BitVec 2) (d : Bool) (r : RoundIdx) :
    decodeSeq (ph ++ BitVec.ofBool d ++ r) =
      if ph = 0b00#2 then .stepWait d r
      else if ph = 0b01#2 then (if d then .stepRoundDec r else .stepRoundEnc r)
      else if ph = 0b10#2 then .stepFinal d r
      else .stepRespond d r := by
  obtain ⟨hph, hd, hr⟩ := selector_fields ph d r
  simp only [decodeSeq, hph, hd, hr]

/-- Decoding an instruction's word reads the instruction (R71, R76, R77). -/
@[simp] theorem decode_encode (i : Instr) : decode (encode i) = i := by
  cases i with
  | nop d => exact decodeCmd_append 0b00#2 d
  | setkey d => exact decodeCmd_append 0b01#2 d
  | encrypt d => exact decodeCmd_append 0b10#2 d
  | decrypt d => exact decodeCmd_append 0b11#2 d
  | stepWait d r => exact decodeSeq_append 0b00#2 d r
  | stepRoundEnc r => exact decodeSeq_append 0b01#2 false r
  | stepRoundDec r => exact decodeSeq_append 0b01#2 true r
  | stepFinal d r => exact decodeSeq_append 0b10#2 d r
  | stepRespond d r => exact decodeSeq_append 0b11#2 d r
  | applyIp | applyFp | applyPc1 | applyPc2 | applyE | applyS | applyP | rsh => rfl

/-- A command word is the word of the command it names (R71). -/
theorem encode_decodeCmd (w : BitVec 66) : encode (decodeCmd w) = .cmd w := by
  obtain ⟨op, d, rfl⟩ : ∃ (op : BitVec 2) (d : Block), op ++ d = w :=
    ⟨w.extractLsb' 64 2, w.extractLsb' 0 64, BitVec.extractLsb'_append_extractLsb'⟩
  rw [decodeCmd_append]
  rcases twoBit_cases op with rfl | rfl | rfl | rfl <;> rfl

/-- A step selector is the word of the step it names (R76). -/
theorem encode_decodeSeq (w : BitVec 7) : encode (decodeSeq w) = .seq w := by
  rw [← selector_of_fields w, decodeSeq_append]
  generalize w.getLsbD 4 = d
  rcases twoBit_cases (w.extractLsb' 5 2) with h | h | h | h <;> rw [h]
  case inr.inl => cases d <;> rfl
  all_goals rfl

/-- A bank selector is the word of the operation it names (R77). -/
theorem encode_decodePu (w : BitVec 3) : encode (decodePu w) = .pu w := by
  revert w
  decide

/-- Encoding what a word names gives the word back (R73, R76, R77). -/
@[simp] theorem encode_decode (w : Code) : encode (decode w) = w := by
  cases w with
  | cmd w => exact encode_decodeCmd w
  | seq w => exact encode_decodeSeq w
  | pu w => exact encode_decodePu w

/-- Settles O2: the encoder undoes the decoder on every word, and the decoder the encoder. -/
theorem everyWordIsOneInstruction : Obligations.EveryWordIsOneInstruction := by
  unfold Obligations.EveryWordIsOneInstruction
  refine fun w => ⟨encode_decode w, ?_⟩
  rintro i rfl
  exact (decode_encode i).symm

/-- Settles O4, opcode by opcode. -/
theorem opcodeTellsTheCommand : Obligations.OpcodeTellsTheCommand := by
  unfold Obligations.OpcodeTellsTheCommand
  exact fun d => ⟨decodeCmd_append 0b00#2 d, decodeCmd_append 0b01#2 d, decodeCmd_append 0b10#2 d,
    decodeCmd_append 0b11#2 d⟩

/-- Settles O5: each phase's step by the fields, and the triple of a word is its fields. -/
theorem selectorNamesTheStep : Obligations.SelectorNamesTheStep := by
  unfold Obligations.SelectorNamesTheStep
  refine ⟨fun d r => ⟨decodeSeq_append 0b00#2 d r, decodeSeq_append 0b01#2 d r, decodeSeq_append 0b10#2 d r,
    decodeSeq_append 0b11#2 d r⟩, fun w => ⟨_, _, _, (selector_of_fields w).symm, ?_⟩⟩
  rintro ph d r rfl
  obtain ⟨hph, hd, hr⟩ := selector_fields ph d r
  exact ⟨hph.symm, hd.symm, hr.symm⟩

/-- Every 3-bit number is the number of the bank it names (R51). -/
theorem bankNumber_bankOfNumber (n : BitVec 3) : Machine.bankNumber (Machine.bankOfNumber n) = n := by
  revert n
  decide

/-- Settles O6: the eight selectors by evaluation, and the bank numbering both ways. -/
theorem bankSelectorNamesTheOperation : Obligations.BankSelectorNamesTheOperation := by
  unfold Obligations.BankSelectorNamesTheOperation
  exact ⟨rfl, rfl, rfl, rfl, rfl, rfl, rfl, rfl, Machine.bankOfNumber_bankNumber, bankNumber_bankOfNumber⟩

end Sys2Proof
end

section
/-! Words laid out as bytes (log 12): what the byte decoder answers, case by case, and that it reads an instruction back
from the bytes of its word. -/

namespace Sys2Proof

@[simp] theorem natToBytes_length (k n : Nat) : (natToBytes k n).length = k := by
  induction k generalizing n with
  | zero => rfl
  | succ k ih => simp [natToBytes, ih]

/-- A number that `k` bytes can hold is read back from its `k` bytes (log 12). -/
theorem bytesToNat_natToBytes {k n : Nat} (h : n < 256 ^ k) : bytesToNat (natToBytes k n) = n := by
  induction k generalizing n with
  | zero => simpa [natToBytes, bytesToNat, eq_comm] using h
  | succ k ih =>
    have hdiv : n / 256 < 256 ^ k := Nat.div_lt_of_lt_mul (by rwa [Nat.pow_succ'] at h)
    rw [natToBytes, bytesToNat, ih hdiv, BitVec.toNat_ofNat]
    exact Nat.mod_add_div n 256

/-- The bytes of a format hold every word of it (R70, R76, R77; log 12). -/
theorem formatBits_fit (f : Format) : 2 ^ formatBits f ≤ 256 ^ formatBytes f := by cases f <;> decide

/-- A word's number is below the bound of its format (R70, R76, R77). -/
theorem codeNat_lt (w : Code) : codeNat w < 2 ^ formatBits (codeFormat w) := by
  cases w <;> exact BitVec.isLt _

/-- A word is the word of its format with its number. -/
@[simp] theorem codeOfNat_codeNat (w : Code) : codeOfNat (codeFormat w) (codeNat w) = w := by
  cases w <;> simp [codeOfNat, codeFormat, codeNat]

theorem decodeBytes_wrongLength {f : Format} {bs : List Byte} (hlen : bs.length ≠ formatBytes f) :
    decodeBytes f bs = .error .wrongLength := if_pos hlen

theorem decodeBytes_excessBits {f : Format} {bs : List Byte} (hlen : bs.length = formatBytes f)
    (hbits : 2 ^ formatBits f ≤ bytesToNat bs) : decodeBytes f bs = .error .excessBits := by
  rw [decodeBytes, if_neg (not_not.mpr hlen), if_pos hbits]

theorem decodeBytes_ok {f : Format} {bs : List Byte} (hlen : bs.length = formatBytes f)
    (hbits : bytesToNat bs < 2 ^ formatBits f) :
    decodeBytes f bs = .ok (decode (codeOfNat f (bytesToNat bs))) := by
  rw [decodeBytes, if_neg (not_not.mpr hlen), if_neg (not_le.mpr hbits)]

/-- The bytes of an instruction's word stand for the word's number (log 12). -/
theorem bytesToNat_encodeBytes (i : Instr) : bytesToNat (encodeBytes i) = codeNat (encode i) :=
  bytesToNat_natToBytes ((codeNat_lt _).trans_le (formatBits_fit _))

/-- An instruction's word takes the bytes of its format. -/
theorem encodeBytes_length (i : Instr) : (encodeBytes i).length = formatBytes (codeFormat (encode i)) :=
  natToBytes_length _ _

/-- The byte decoder reads an instruction back from the bytes of its word (log 12). -/
theorem decodeBytes_encodeBytes (i : Instr) : decodeBytes (codeFormat (encode i)) (encodeBytes i) = .ok i := by
  rw [decodeBytes_ok (encodeBytes_length i) ((bytesToNat_encodeBytes i).trans_lt (codeNat_lt _)),
    bytesToNat_encodeBytes, codeOfNat_codeNat, decode_encode]

/-- Settles O1: by word field by field, and by bytes since the bytes stand for the word's number. -/
theorem decodeReadsWhatEncodeWrites : Obligations.DecodeReadsWhatEncodeWrites := by
  unfold Obligations.DecodeReadsWhatEncodeWrites
  exact ⟨decode_encode, decodeBytes_encodeBytes⟩

/-- Settles O7, by the three answers of the byte decoder. -/
theorem bytesRejectedByName : Obligations.BytesRejectedByName := by
  unfold Obligations.BytesRejectedByName
  exact fun f bs => ⟨decodeBytes_wrongLength, decodeBytes_excessBits, fun hlen hbits => ⟨_, decodeBytes_ok hlen hbits⟩⟩

end Sys2Proof
end

section
/-! `STEP.WAIT` in IDLE (R76, R140, R152). -/

namespace Sys2Proof.Machine

/-- `STEP.WAIT` in IDLE is the sequencer's own step, whatever the bits of the selector it does not read (R76). -/
theorem exec_stepWait {s : State} (hp : s.ph = .idle) (d : Bool) (r : RoundIdx) :
    exec (.stepWait d r) s = sequenced installed s := by
  simp [exec, execStepWait, stepWaitWith, sequenced, hp]

/-- In IDLE with no accept event the sequencer does nothing (R140). -/
theorem sequenced_wait (c : Cfg) {s : State} (hp : s.ph = .idle) (ha : acceptEvent s = false) :
    sequenced c s = .next s :=
  sequenced_of_transition (.wait hp (by simp [ha]))

/-- Settles O24: `STEP.WAIT` is the sequencer's step in IDLE, which waits or accepts the offered command. -/
theorem waitAcceptsOrDoesNothing : Obligations.WaitAcceptsOrDoesNothing := by
  unfold Obligations.WaitAcceptsOrDoesNothing
  intro s d r hp
  rw [exec_stepWait hp]
  refine ⟨sequenced_wait installed hp, fun ha => ?_⟩
  rw [sequenced_accept installed ha]
  refine ⟨?_, acceptWith_next installed _ _ s⟩
  rw [exec_eq_execWith]
  exact acceptWith_eq installed _ _ s

end Sys2Proof.Machine
end

section
/-! Bit selection (R90, R92): the bit an entry selects, that a selection reads only the bits its entries name, and its
values on zero, on ones and on an XOR. -/

namespace Sys2Proof.Machine

/-- A table with one entry for each bit of the result puts at bit `i` the source bit that its entry `i` names (R90). -/
theorem applyTable_entry {n : Nat} (table : List Nat) (v : BitVec n) {i : Nat} (h : i < table.length) :
    (applyTable table.length table v).getLsbD i = v.getLsbD (table[i] - 1) := by
  rw [applyTable_bit, List.getElem?_eq_getElem h]
  simp [h]

/-- Sources, of whatever widths, that agree at the bits the entries name give the same selection (R90, R92 (v)). -/
theorem applyTable_congr {m n : Nat} (w : Nat) {table : List Nat} {u : BitVec m} {v : BitVec n}
    (h : ∀ e ∈ table, u.getLsbD (e - 1) = v.getLsbD (e - 1)) : applyTable w table u = applyTable w table v := by
  apply BitVec.eq_of_getLsbD_eq
  intro i _
  rw [applyTable_bit, applyTable_bit]
  cases he : table[i]? with
  | none => rfl
  | some e => exact congrArg (decide (i < w) && ·) (h e (List.mem_of_getElem? he))

/-- Selection is linear over XOR, for any table (R92 (iv)). -/
theorem applyTable_xor {n : Nat} (w : Nat) (table : List Nat) (a b : BitVec n) :
    applyTable w table (a ^^^ b) = applyTable w table a ^^^ applyTable w table b := by
  apply BitVec.eq_of_getLsbD_eq
  intro i hi
  simp only [BitVec.getLsbD_xor, applyTable_bit, hi]
  cases table[i]? <;> simp

/-- The selection of zero is its XOR with itself, for any table (R92 (ii)). -/
theorem applyTable_zero (n w : Nat) (table : List Nat) : applyTable w table 0#n = 0#w := by
  simpa using applyTable_xor w table 0#n 0#n

/-- All ones give all ones where every entry names a bit of the source (R92 (iii)). -/
theorem applyTable_allOnes {n : Nat} {table : List Nat} (range : ∀ e ∈ table, 1 ≤ e ∧ e ≤ n) :
    applyTable table.length table (BitVec.allOnes n) = BitVec.allOnes table.length := by
  apply BitVec.eq_of_getLsbD_eq
  intro i hi
  obtain ⟨hpos, hle⟩ := range table[i] (List.getElem_mem hi)
  have hbit : table[i] - 1 < n := by omega
  rw [applyTable_entry table _ hi]
  simp [hi, hbit]

/-- Where every entry is at most `n`, a wider source is not read at or above bit `n` (R92 (v), R103). -/
theorem applyTable_setWidth {m n : Nat} (w : Nat) {table : List Nat} (range : ∀ e ∈ table, 1 ≤ e ∧ e ≤ n)
    (v : BitVec m) : applyTable w table v = applyTable w table (v.setWidth n) := by
  refine applyTable_congr w fun e he => ?_
  obtain ⟨hpos, hle⟩ := range e he
  have hbit : e - 1 < n := by omega
  simp [hbit]

/-- Settles O34, by the bit an entry selects; past the table's end the result has no bit. -/
theorem applySelectsTheNamedBits : Obligations.ApplySelectsTheNamedBits := by
  unfold Obligations.ApplySelectsTheNamedBits
  rintro n w table v rfl -
  exact ⟨fun i hi => applyTable_entry table v hi, fun i hi => BitVec.getLsbD_of_ge _ i hi⟩

/-- Settles O35, from linearity, the value on ones, and that only the named bits are read. -/
theorem applyOnZeroOnesAndXor : Obligations.ApplyOnZeroOnesAndXor := by
  unfold Obligations.ApplyOnZeroOnesAndXor
  rintro n w table rfl range
  exact ⟨applyTable_zero n _ table, applyTable_allOnes range, applyTable_xor _ table,
    fun m v _ => applyTable_setWidth _ range v⟩

end Sys2Proof.Machine
end

section
/-! IP and FP undo each other (R91 (d), R92 (vi)). R91 (d) gives one direction bit by bit; the other follows because a
one-sided inverse on the finitely many blocks is two-sided. -/

namespace Sys2Proof.Machine

/-- Where the entry of FP at `i` is `e`, the entry of IP at the place `e` names is `i + 1` (R91 (d)). -/
theorem romRead_ip_of_fp {c : Cfg} {i e : Nat} (h : romRead c.rom .fp i = some e) :
    romRead c.rom .ip (e - 1) = some (i + 1) := by
  have hi : i < 64 := (romRead_isSome_iff c .fp i).mp (by simp [h])
  have hfp : c.rom.fp[i]? = some e := h
  have hinv : (c.rom.ip[e - 1]?).getD 0 = i + 1 := by simpa [hfp] using bank_inverse c i hi
  change c.rom.ip[e - 1]? = some (i + 1)
  cases hip : c.rom.ip[e - 1]? with
  | none => simp [hip] at hinv
  | some a => simpa [hip] using hinv

/-- FP undoes IP: bit `i` of the result is the bit that IP's entry at FP's place names, which is bit `i`. -/
theorem selectFp_selectIp (c : Cfg) (x : Block) : selectFp c (selectIp c x) = x := by
  apply BitVec.eq_of_getLsbD_eq
  intro i hi
  obtain ⟨e, he⟩ := Option.isSome_iff_exists.mp ((romRead_isSome_iff c .fp i).mpr hi)
  calc (selectFp c (selectIp c x)).getLsbD i
      = (selectIp c x).getLsbD (e - 1) := applyTable_romRead he _
    _ = x.getLsbD i := applyTable_romRead (romRead_ip_of_fp he) x

/-- IP undoes FP: IP has a left inverse, so it is injective and, blocks being finitely many, onto. -/
theorem selectIp_selectFp (c : Cfg) (x : Block) : selectIp c (selectFp c x) = x := by
  have left : Function.LeftInverse (selectFp c) (selectIp c) := selectFp_selectIp c
  have onto : Function.Surjective (selectIp c) := Finite.surjective_of_injective left.injective
  exact left.rightInverse_of_surjective onto x

/-- Settles O36: FP undoes IP by R91 (d), and IP undoes FP by finiteness. -/
theorem ipAndFpUndoEachOther : Obligations.IpAndFpUndoEachOther := by
  unfold Obligations.IpAndFpUndoEachOther
  exact fun c x => ⟨selectFp_selectIp c x, selectIp_selectFp c x⟩

end Sys2Proof.Machine
end

section
/-! The unit operations run alone (R77, R93 to R100; log 9): what each delivers, and that it writes nothing else. -/

namespace Sys2Proof.Machine

/-- A 64-bit operand is the whole operand field. -/
@[simp] theorem unitOperand_whole (s : State) : unitOperand 64 s = s.unitIn := BitVec.setWidth_eq _

/-- A 64-bit result fills the result field. -/
theorem unitResult_whole (s : State) (v : Block) : unitResult s v = { s with unitOut := v } := by
  simp [unitResult]

theorem exec_applyIp (s : State) : exec .applyIp s = .next (unitResult s (selectIp installed (unitOperand 64 s))) := rfl

theorem exec_applyFp (s : State) : exec .applyFp s = .next (unitResult s (selectFp installed (unitOperand 64 s))) := rfl

theorem exec_applyPc1 (s : State) :
    exec .applyPc1 s = .next (unitResult s (selectPc1 installed (unitOperand 64 s))) := rfl

theorem exec_rsh (s : State) :
    exec .rsh s = .next (unitResult s (amountBits (rotAmount installed (unitOperand 4 s).toNat))) := rfl

/-- Settles O33: an operation answers a state that differs in the unit's result only. -/
theorem unitOperationFrame : Obligations.UnitOperationFrame := by
  unfold Obligations.UnitOperationFrame
  intro b s t h
  rw [exec_eq_execWith, execWith_unit] at h
  cases h
  rfl

/-- Settles O31. The four operations with a narrow operand deliver the result as stated; where the operand or the
result is 64 bits wide it is the whole field. -/
theorem namedSelectionsDeliverApply : Obligations.NamedSelectionsDeliverApply := by
  unfold Obligations.NamedSelectionsDeliverApply
  intro s
  refine ⟨?ip, ?fp, ?pc1, rfl, rfl, rfl, rfl⟩
  case ip => rw [exec_applyIp, unitOperand_whole, unitResult_whole, selectIp]
  case fp => rw [exec_applyFp, unitOperand_whole, unitResult_whole, selectFp]
  case pc1 => rw [exec_applyPc1, unitOperand_whole, unitResult, selectPc1]

/-- The amount of a round, zero-extended from the 2 bits of its entry (R78): 1 for rounds 0, 1, 8, 15 and 2 for all
others (R100). -/
theorem amountBits_rotAmount (c : Cfg) (r : RoundIdx) : (amountBits (rotAmount c r.toNat)).setWidth 64 =
    if r = 0#4 ∨ r = 1#4 ∨ r = 8#4 ∨ r = 15#4 then 1 else 2 := by
  rw [rotAmount_eq]
  revert r
  decide

/-- Settles O32: the amount of the round index fits the 2 bits of its entry, and the sixteen amounts are the fixed
ones. -/
theorem rotationAmountLookup : Obligations.RotationAmountLookup := by
  unfold Obligations.RotationAmountLookup
  refine ⟨fun s => ?amount, fun c => ?total⟩
  case amount =>
    rw [exec_rsh, unitResult, amountBits_rotAmount, unitOperand]
  case total =>
    rw [map_rotAmount]
    decide

end Sys2Proof.Machine
end

section
/-! The rotations bit by bit and as inverses (R110, R111). A right rotation is the left rotation by the rest of a turn,
so the facts about it follow from those about the left rotation. -/

namespace Sys2Proof.Machine

/-- Bit `i` becomes bit `(i + n) mod 28` (R110): it moves up by `n` places, or wraps round below bit `n`. -/
theorem rotl28_moves_bit (x : KeyHalf) {n i : Nat} (hn : n ≤ 28) (hi : i < 28) :
    (rotl28 x n).getLsbD ((i + n) % 28) = x.getLsbD i := by
  rw [rotl28_bit x n _ hn]
  by_cases hwrap : i + n < 28
  · have hup : ¬ i + n < n := by omega
    simp [Nat.mod_eq_of_lt hwrap, hwrap, hup]
  · have hmod : (i + n) % 28 = i + n - 28 := by omega
    have hlt : i + n - 28 < 28 := by omega
    have hlow : i + n - 28 < n := by omega
    have hback : 28 - n + (i + n - 28) = i := by omega
    simp [hmod, hlt, hlow, hback]

/-- A right rotation is the left rotation by the rest of a turn (R110, R111). -/
theorem rotr28_eq_rotl28 (x : KeyHalf) {n : Nat} (hn : n ≤ 28) : rotr28 x n = rotl28 x (28 - n) := by
  rw [rotr28, rotl28, Nat.sub_sub_self hn, BitVec.or_comm]

/-- The left rotation undoes the right one (R111). -/
theorem rotl28_rotr28 (x : KeyHalf) {n : Nat} (hn : n ≤ 28) : rotl28 (rotr28 x n) n = x := by
  have hturn : 28 - n + n = 28 := Nat.sub_add_cancel hn
  rw [rotr28_eq_rotl28 x hn, rotl28_rotl28 x hturn.le, hturn, rotl28_whole]

/-- The right rotation undoes the left one (R111). -/
theorem rotr28_rotl28_same (x : KeyHalf) {n : Nat} (hn : n ≤ 28) : rotr28 (rotl28 x n) n = x := by
  rw [rotr28_rotl28 x le_rfl hn, Nat.sub_self, rotl28_zero]

/-- Bit `(i + n) mod 28` becomes bit `i` (R111): the left rotation moves it back. -/
theorem rotr28_moves_bit (x : KeyHalf) {n i : Nat} (hn : n ≤ 28) (hi : i < 28) :
    (rotr28 x n).getLsbD i = x.getLsbD ((i + n) % 28) := by
  rw [← rotl28_moves_bit (rotr28 x n) hn hi, rotl28_rotr28 x hn]

/-- Settles O40: the left rotation bit by bit, and the right rotation as its inverse. -/
theorem rotationsMoveBitsAndUndo : Obligations.RotationsMoveBitsAndUndo := by
  unfold Obligations.RotationsMoveBitsAndUndo
  exact fun x n hn => ⟨fun _ hi => rotl28_moves_bit x hn hi, fun _ hi => rotr28_moves_bit x hn hi,
    rotr28_rotl28_same x hn, rotl28_rotr28 x hn⟩

end Sys2Proof.Machine
end

section
/-! The key schedule alone: after `n` of its steps the pair is the loaded pair rotated left by the total `turned`, which
the table of R117 lists (R113 to R115, R117). -/

namespace Sys2Proof.Machine

open Safety

/-- No rotation of the pair (R110). -/
theorem turnLeft_zero (w : Work) : turnLeft 0 w = w := by
  simp [turnLeft, rotl28_zero]

/-- A whole turn of the pair (R121). -/
theorem turnLeft_whole (w : Work) : turnLeft 28 w = w := by
  simp [turnLeft, rotl28_whole]

/-- Left rotations of the pair add up, within a whole turn (R110). -/
theorem turnLeft_turnLeft (w : Work) {m n : Nat} (h : m + n ≤ 28) : turnLeft n (turnLeft m w) = turnLeft (m + n) w := by
  simp [turnLeft, rotl28_rotl28 _ h]

/-- A right rotation of the pair takes back a part of a left rotation (R111). -/
theorem turnRight_turnLeft (w : Work) {m n : Nat} (hn : n ≤ m) (hm : m ≤ 28) :
    turnRight n (turnLeft m w) = turnLeft (m - n) w := by
  simp [turnLeft, turnRight, rotr28_rotl28 _ hn hm]

/-- Every step of the reverse schedule but the first is a right rotation (R115). -/
theorem ksRev_of_ne_zero (c : Cfg) {r : Nat} (hr : r ≠ 0) (w : Work) :
    ksRev c r w = turnRight (rotAmount c (16 - r)) w := if_neg hr

/-- The forward schedule rotates by the running sum of the amounts (R113, R117). -/
theorem fwdSchedule_eq_turnLeft (c : Cfg) (w : Work) {n : Nat} (hn : n ≤ 16) :
    fwdSchedule c n w = turnLeft (turned false n) w := by
  induction n with
  | zero => exact (turnLeft_zero w).symm
  | succ n ih =>
    obtain ⟨hle, hsucc⟩ := turned_enc_succ c hn
    rw [fwdSchedule, ih (Nat.le_of_succ_le hn), ksFwd, turnLeft_turnLeft w hle, hsucc]

/-- The reverse schedule rotates by a whole turn less the amounts taken back (R115, R117). -/
theorem revSchedule_eq_turnLeft (c : Cfg) (w : Work) {n : Nat} (hn : n ≤ 16) :
    revSchedule c n w = turnLeft (turned true n) w := by
  induction n with
  | zero => exact (turnLeft_whole w).symm
  | succ n ih =>
    rw [revSchedule, ih (Nat.le_of_succ_le hn)]
    by_cases hn0 : n = 0
    · subst hn0
      rw [turned_dec_one]
      rfl
    · obtain ⟨hle, hsucc⟩ := turned_dec_succ c hn hn0
      rw [ksRev_of_ne_zero c hn0, turnRight_turnLeft w hle (turned_le true hn), hsucc]

/-- The encrypt row of the table of R117. -/
theorem turned_enc_row : [1, 2, 4, 6, 8, 10, 12, 14, 15, 17, 19, 21, 23, 25, 27, 28] =
    (List.range 16).map fun r => turned false (r + 1) := by decide

/-- The decrypt row of the table of R117. -/
theorem turned_dec_row : [28, 27, 25, 23, 21, 19, 17, 15, 14, 12, 10, 8, 6, 4, 2, 1] =
    (List.range 16).map fun r => turned true (r + 1) := by decide

/-- A row of the table has an entry for each of the sixteen rounds: the total after that round (R117). -/
theorem turned_row_lookup {dir : Bool} {r a : Nat}
    (h : ((List.range 16).map fun r => turned dir (r + 1))[r]? = some a) : r < 16 ∧ turned dir (r + 1) = a := by
  obtain ⟨hr, rfl⟩ := List.getElem?_eq_some_iff.mp h
  exact ⟨by simpa using hr, by simp⟩

/-- Settles O41: each schedule rotates by its total, and the two rows of the table are the totals. -/
theorem cumulativeRotations : Obligations.CumulativeRotations := by
  unfold Obligations.CumulativeRotations
  refine fun c k x => ⟨fun r a h => ?enc, fun r a h => ?dec⟩
  case enc =>
    rw [turned_enc_row] at h
    obtain ⟨hr, rfl⟩ := turned_row_lookup h
    exact fwdSchedule_eq_turnLeft c _ hr
  case dec =>
    rw [turned_dec_row] at h
    obtain ⟨hr, rfl⟩ := turned_row_lookup h
    rw [ksPrerot_eq, revSchedule_eq_turnLeft c _ hr]

end Sys2Proof.Machine
end

section
/-! The key halves along the rounds of a command, whatever the block (R121): the rounds keep the halves where the
schedule alone puts them, so the subkeys the rounds use are those of the schedule (R118). -/

namespace Sys2Proof.Machine

open Safety

/-- After `n` rounds of `ENCRYPT` the halves stand where the forward schedule puts them (R117, R147). -/
theorem encRounds_halvesTurned (c : Cfg) (k : PermKey) (x : Block) {n : Nat} (hn : n ≤ 16) :
    halvesTurned k (turned false n) (encRounds c n (ksLoad k x)) := by
  induction n with
  | zero => exact ksLoad_halvesTurned k x false
  | succ n ih => exact encRound_halvesTurned c hn (ih (Nat.le_of_succ_le hn))

/-- After `n` rounds of `DECRYPT` the halves stand where the reverse schedule puts them (R117, R148). -/
theorem decRounds_halvesTurned (c : Cfg) (k : PermKey) (x : Block) {n : Nat} (hn : n ≤ 16) :
    halvesTurned k (turned true n) (decRounds c n (ksPrerot c (ksLoad k x))) := by
  rw [ksPrerot_eq]
  induction n with
  | zero => exact ksLoad_halvesTurned k x true
  | succ n ih => exact decRound_halvesTurned c hn (ih (Nat.le_of_succ_le hn))

/-- The whole of `ENCRYPT` is a whole turn (R121). -/
theorem turned_enc_all : turned false 16 = 28 := by decide

/-- The whole of `DECRYPT` leaves one place (R121). -/
theorem turned_dec_all : turned true 16 = 1 := by decide

/-- Settles O42: the totals of the sixteen rounds are 28 and 1, and a turn by 28 places is the identity. -/
theorem wholeTurnOfTheKeyHalves : Obligations.WholeTurnOfTheKeyHalves := by
  unfold Obligations.WholeTurnOfTheKeyHalves
  intro c k x
  obtain ⟨henc0, henc1⟩ := encRounds_halvesTurned c k x le_rfl
  obtain ⟨hdec0, hdec1⟩ := decRounds_halvesTurned c k x le_rfl
  rw [turned_enc_all, rotl28_whole] at henc0 henc1
  rw [turned_dec_all] at hdec0 hdec1
  exact ⟨henc0, henc1, ksPrerot_eq c, hdec0, hdec1⟩

/-- The subkey is a function of the rotated pair alone (R116, R118). -/
theorem ksSubkey_of_halvesTurned (c : Cfg) {k : PermKey} {n : Nat} {w : Work} (h : halvesTurned k n w) :
    ksSubkey c w = ksSubkey c (turnLeft n (ksLoad k 0)) := by
  obtain ⟨h0, h1⟩ := h
  rw [ksSubkey, h0, h1]
  rfl

/-- `EK(r)` is derived from the loaded pair rotated by the encrypt total of R117. -/
theorem encSubkey_eq (c : Cfg) (k : PermKey) {r : Nat} (hr : r < 16) :
    encSubkey c k r = ksSubkey c (turnLeft (turned false (r + 1)) (ksLoad k 0)) := by
  rw [encSubkey, fwdSchedule_eq_turnLeft c _ hr]

/-- `DK(r)` is derived from the loaded pair rotated by the decrypt total of R117. -/
theorem decSubkey_eq (c : Cfg) (k : PermKey) {r : Nat} (hr : r < 16) :
    decSubkey c k r = ksSubkey c (turnLeft (turned true (r + 1)) (ksLoad k 0)) := by
  rw [decSubkey, ksPrerot_eq, revSchedule_eq_turnLeft c _ hr]

/-- The decrypt row of R117 is the encrypt row read backwards. -/
theorem turned_dec_eq_enc {r : Nat} (hr : r < 16) : turned true (r + 1) = turned false (15 - r + 1) := by
  revert r
  decide

/-- The decrypt subkeys are the encrypt subkeys in reverse order (R118). -/
theorem decSubkey_eq_encSubkey (c : Cfg) (k : PermKey) {r : Nat} (hr : r < 16) :
    decSubkey c k r = encSubkey c k (15 - r) := by
  rw [decSubkey_eq c k hr, turned_dec_eq_enc hr, encSubkey_eq c k (by omega)]

/-- Round `r` of `ENCRYPT` uses `EK(r)`, whatever the block: the round leaves the halves where its `KS.FWD` put them. -/
theorem encRounds_subkey (c : Cfg) (k : PermKey) (x : Block) {r : Nat} (hr : r < 16) :
    ksSubkey c (ksFwd c r (encRounds c r (ksLoad k x))) = encSubkey c k r := by
  have h : halvesTurned k (turned false (r + 1)) (ksFwd c r (encRounds c r (ksLoad k x))) :=
    encRound_halvesTurned c hr (encRounds_halvesTurned c k x hr.le)
  rw [ksSubkey_of_halvesTurned c h, encSubkey_eq c k hr]

/-- Round `r` of `DECRYPT` uses `DK(r)`, whatever the block: the round leaves the halves where its `KS.REV` put them. -/
theorem decRounds_subkey (c : Cfg) (k : PermKey) (x : Block) {r : Nat} (hr : r < 16) :
    ksSubkey c (ksRev c r (decRounds c r (ksPrerot c (ksLoad k x)))) = decSubkey c k r := by
  have h : halvesTurned k (turned true (r + 1)) (ksRev c r (decRounds c r (ksPrerot c (ksLoad k x)))) :=
    decRound_halvesTurned c hr (decRounds_halvesTurned c k x hr.le)
  rw [ksSubkey_of_halvesTurned c h, decSubkey_eq c k hr]

/-- `DK(0)` is derived from the unrotated pair (R118). -/
theorem decSubkey_zero (c : Cfg) (k : PermKey) : decSubkey c k 0 = ksSubkey c (ksLoad k 0) := by
  have hturn : turned true 1 = 28 := by decide
  rw [decSubkey_eq c k (by decide), hturn, turnLeft_whole]

/-- Settles O43: the subkey depends on the rotated pair alone, and the decrypt totals are the encrypt totals read
backwards. -/
theorem decryptSubkeysAreReversed : Obligations.DecryptSubkeysAreReversed := by
  unfold Obligations.DecryptSubkeysAreReversed
  exact fun c k => ⟨fun _ hr => decSubkey_eq_encSubkey c k hr, decSubkey_zero c k,
    fun x _ hr => ⟨encRounds_subkey c k x hr, decRounds_subkey c k x hr⟩⟩

end Sys2Proof.Machine
end

section
/-! The round function (R130): its value where one of the operands of its XOR is known, and its linearity. A round is
undone by the same round after a swap (R131, R133). -/

namespace Sys2Proof.Machine

/-- All ones give all ones through any bank, as its entries all name bits of its source (R92 (iii)). -/
theorem applyTable_bank_allOnes (c : Cfg) (b : Bank) :
    applyTable (bankLength b) (bankTable c.rom b) (BitVec.allOnes (bankSource b)) = BitVec.allOnes (bankLength b) := by
  have h := applyTable_allOnes fun _ he => entry_range c b he
  rwa [bank_length] at h

theorem selectE_allOnes (c : Cfg) : selectE c (BitVec.allOnes 32) = BitVec.allOnes 48 := applyTable_bank_allOnes c .e

theorem selectS_allOnes (c : Cfg) : selectS c (BitVec.allOnes 48) = BitVec.allOnes 32 := applyTable_bank_allOnes c .s

theorem selectP_allOnes (c : Cfg) : selectP c (BitVec.allOnes 32) = BitVec.allOnes 32 := applyTable_bank_allOnes c .p

/-- The round function is linear over XOR in both operands together: each of its three selections is (R92 (iv)), and
the XOR with the subkey only reorders the terms. -/
theorem roundFunction_xor (c : Cfg) (a b : Half) (j k : SubKey) :
    roundFunction c (a ^^^ b) (j ^^^ k) = roundFunction c a j ^^^ roundFunction c b k := by
  have expanded : selectE c (a ^^^ b) ^^^ (j ^^^ k) = (selectE c a ^^^ j) ^^^ (selectE c b ^^^ k) := by
    rw [selectE, applyTable_xor]
    ac_rfl
  simp only [roundFunction, expanded, selectS, selectP, applyTable_xor]

/-- On the zero half, which expands to zero, the subkey is substituted and permuted as it stands. -/
theorem roundFunction_zero_half (c : Cfg) (k : SubKey) : roundFunction c 0#32 k = selectP c (selectS c k) := by
  rw [roundFunction, selectE, applyTable_zero, BitVec.zero_xor]

theorem roundFunction_zero_zero (c : Cfg) : roundFunction c 0#32 0#48 = 0#32 := by
  rw [roundFunction_zero_half, selectS, applyTable_zero, selectP, applyTable_zero]

theorem roundFunction_zero_allOnes (c : Cfg) : roundFunction c 0#32 (BitVec.allOnes 48) = BitVec.allOnes 32 := by
  rw [roundFunction_zero_half, selectS_allOnes, selectP_allOnes]

/-- The half of ones expands to ones, which the subkey of ones cancels. -/
theorem roundFunction_allOnes_allOnes (c : Cfg) :
    roundFunction c (BitVec.allOnes 32) (BitVec.allOnes 48) = 0#32 := by
  rw [roundFunction, selectE_allOnes, BitVec.xor_self, selectS, applyTable_zero, selectP, applyTable_zero]

/-- Settles O44: the composition by definition, the fixed values and the linearity from those of the selections. -/
theorem roundFunctionValues : Obligations.RoundFunctionValues := by
  unfold Obligations.RoundFunctionValues
  exact fun c => ⟨fun _ _ => rfl, roundFunction_zero_zero c, roundFunction_zero_allOnes c,
    roundFunction_allOnes_allOnes c, roundFunction_xor c⟩

/-- The working registers with `L` and `R` exchanged, as the statement of R133 exchanges them. -/
def swapHalves (w : Work) : Work := { w with l := w.r, r := w.l }

/-- The second round XORs the same `F(R, subkey)` onto the old `L` again, as the swap puts the old `R` back (R133). -/
theorem feistelRound_swapHalves_feistelRound (c : Cfg) (subkey : SubKey) (w : Work) :
    feistelRound c subkey (swapHalves (feistelRound c subkey w)) = swapHalves w := by
  have cancel : (w.l ^^^ roundFunction c w.r subkey) ^^^ roundFunction c w.r subkey = w.l := by
    rw [BitVec.xor_assoc, BitVec.xor_self, BitVec.xor_zero]
  simp only [feistelRound, swapHalves, cancel]

/-- Settles O45: the two XORs with the same value of the round function cancel. -/
theorem roundUndoneAfterASwap : Obligations.RoundUndoneAfterASwap := by
  unfold Obligations.RoundUndoneAfterASwap
  exact feistelRound_swapHalves_feistelRound

end Sys2Proof.Machine
end

section
/-! The four commands and the steps of the sequencer run alone: what each writes where it is enabled, and what it answers
elsewhere (R140 to R150; log 10). -/

namespace Sys2Proof.Machine

/-- A command has its effect where the engine is ready (R140). -/
theorem whenReady_ready {s : State} (t : State) (h : cmdReady s = true) : whenReady s t = .next t := by
  simp [whenReady, h]

/-- A command has no effect where the engine is not ready (R140; log 10). -/
theorem whenReady_unready {s : State} (t : State) (h : cmdReady s = false) : whenReady s t = .next s := by
  simp [whenReady, h]

/-- The key an accept step reads while `KV = 1` (R21, R22). -/
theorem keyRead_of_kv {s : State} (h : s.kv = true) : keyRead s = s.keyreg := if_pos h

/-- The two branches of a round step in one update: every round writes `PH` and `RND`, the last one the old `RND`. -/
theorem advanceRound_eq (w : Work) (s : State) : advanceRound w s = { s.withWork w with
    ph := if s.rnd = 15#4 then .final else s.ph
    rnd := if s.rnd = 15#4 then 15#4 else s.rnd + 1#4 } := by
  unfold advanceRound
  split
  · next last => simp only [← last]; rfl
  · rfl

/-- Settles O11, command by command. -/
theorem unreadyCommandChangesNothing : Obligations.UnreadyCommandChangesNothing := by
  unfold Obligations.UnreadyCommandChangesNothing
  exact fun s d h => ⟨whenReady_unready _ h, whenReady_unready _ h, whenReady_unready _ h, whenReady_unready _ h⟩

/-- Settles O17: the engine is ready, so the command has its effect. -/
theorem setkeyStoresThePermutedKey : Obligations.SetkeyStoresThePermutedKey := by
  unfold Obligations.SetkeyStoresThePermutedKey
  exact fun s key hp hr => whenReady_ready _ ((cmdReady_iff s).mpr ⟨hp, hr⟩)

/-- Settles O18: the effect of `NOP` and the lack of one are the same state. -/
theorem nopDoesNothing : Obligations.NopDoesNothing := by
  unfold Obligations.NopDoesNothing
  exact fun s operand => congrArg Host.Outcome.next (ite_self s)

/-- Settles O19: the accept step reads `KEYREG`, as `KV = 1`. -/
theorem encryptAcceptWrites : Obligations.EncryptAcceptWrites := by
  unfold Obligations.EncryptAcceptWrites
  intro s block hp hr hk
  have accepted : exec (.encrypt block) s = .next (startBlock false (encStart installed (keyRead s) block) s) :=
    whenReady_ready _ ((cmdReady_iff s).mpr ⟨hp, hr⟩)
  rw [accepted, keyRead_of_kv hk]
  rfl

/-- Settles O20: the accept step reads `KEYREG`, as `KV = 1`, and the pre-rotation is the identity. -/
theorem decryptAcceptWrites : Obligations.DecryptAcceptWrites := by
  unfold Obligations.DecryptAcceptWrites
  intro s block hp hr hk
  have accepted : exec (.decrypt block) s = .next (startBlock true (decStart installed (keyRead s) block) s) :=
    whenReady_ready _ ((cmdReady_iff s).mpr ⟨hp, hr⟩)
  rw [accepted, keyRead_of_kv hk, decStart_eq, ksPrerot_eq]
  exact ⟨rfl, rfl, rfl⟩

/-- Settles O25: the step is selected, and its writes are those of the round. -/
theorem encryptRoundWrites : Obligations.EncryptRoundWrites := by
  unfold Obligations.EncryptRoundWrites
  intro s hp hd
  have selected : exec (.stepRoundEnc s.rnd) s = .next (advanceRound (encRound installed s.rnd.toNat s.work) s) :=
    whenSelected_next.mpr ⟨by simp [hp, hd], rfl⟩
  rw [selected, advanceRound_eq, hp]
  rfl

/-- The reverse key schedule half by half: at `r = 0` the halves as they stand, else rotated right (R115). -/
theorem ksRev_eq (c : Cfg) (r : Nat) (w : Work) : ksRev c r w = { w with
    kh0 := if r = 0 then w.kh0 else rotr28 w.kh0 (rotAmount c (16 - r))
    kh1 := if r = 0 then w.kh1 else rotr28 w.kh1 (rotAmount c (16 - r)) } := by
  by_cases hr : r = 0
  · simp [ksRev, hr]
  · simp [ksRev, hr, turnRight]

/-- Settles O26: the step is selected, and its writes are those of the round with the halves turned back. -/
theorem decryptRoundWrites : Obligations.DecryptRoundWrites := by
  unfold Obligations.DecryptRoundWrites
  intro s hp hd
  have selected : exec (.stepRoundDec s.rnd) s = .next (advanceRound (decRound installed s.rnd.toNat s.work) s) :=
    whenSelected_next.mpr ⟨by simp [hp, hd], rfl⟩
  have first : s.rnd.toNat = 0 ↔ s.rnd = 0#4 := BitVec.toNat_inj (y := 0#4)
  rw [selected, advanceRound_eq, hp, decRound, ksRev_eq]
  simp only [first]
  rfl

/-- Settles O27: the step is selected whatever the bits of `DIR` and `RND`. -/
theorem finalStepWritesTheResult : Obligations.FinalStepWritesTheResult := by
  unfold Obligations.FinalStepWritesTheResult
  exact fun s d r hp => whenSelected_next.mpr ⟨by simp [hp], rfl⟩

/-- The respond event, by the ports (R150). -/
theorem respondEvent_iff (s : State) :
    respondEvent s = true ↔ (inputs s).rspReady = true ∧ (inputs s).rst = false := by
  simp [respondEvent]

/-- In RESP the engine shows `DOUT` (R28). -/
theorem rspData_of_resp {s : State} (hp : s.ph = .resp) : rspData s = s.dout := if_pos ((rspValid_iff s).mpr hp)

/-- `STEP.RESPOND` in RESP hands over `DOUT` at a respond event and waits otherwise (R150). -/
theorem exec_stepRespond {s : State} (hp : s.ph = .resp) (d : Bool) (r : RoundIdx) :
    exec (.stepRespond d r) s =
      .next (if respondEvent s then { s with taken := s.taken ++ [s.dout], ph := .idle } else s) :=
  whenSelected_next.mpr ⟨by simp [hp], by rw [rspData_of_resp hp]⟩

/-- Settles O28: the outputs in RESP, and the two branches of the step. -/
theorem respondHandsOverTheResult : Obligations.RespondHandsOverTheResult := by
  unfold Obligations.RespondHandsOverTheResult
  intro s d r hp
  refine ⟨(rspValid_iff s).mpr hp, rspData_of_resp hp, by simp [cmdReady, hp], fun ready noRst => ?_,
    fun notReady => ?_⟩
  · rw [exec_stepRespond hp, if_pos ((respondEvent_iff s).mpr ⟨ready, noRst⟩)]
  · rw [exec_stepRespond hp, if_neg (by simp [respondEvent, notReady])]

/-- A step that is not enabled is refused (log 10). -/
theorem whenSelected_refused {enabled : Bool} (t : State) (h : ¬ enabled = true) :
    whenSelected enabled t = .refused .notSelected := if_neg h

/-- Settles O29, step by step: each guard fails. -/
theorem unselectedStepIsRefused : Obligations.UnselectedStepIsRefused := by
  unfold Obligations.UnselectedStepIsRefused
  refine fun s d r => ⟨fun h => if_neg h, fun h => whenSelected_refused _ ?_, fun h => whenSelected_refused _ ?_,
    fun h => whenSelected_refused _ ?_, fun h => whenSelected_refused _ ?_⟩
  · simp only [Bool.and_eq_true, beq_iff_eq]
    rintro ⟨⟨hp, hd⟩, hr⟩
    simp [hp, hd, hr] at h
  · simp only [Bool.and_eq_true, beq_iff_eq]
    rintro ⟨⟨hp, hd⟩, hr⟩
    simp [hp, hd, hr] at h
  · simpa using h
  · simpa using h

end Sys2Proof.Machine
end

section
/-! The step and the sequencer's transitions (R140, R152, R157, R161). A transition is the sequencer's only one, so each
row of R152 tells the whole step. -/

namespace Sys2Proof.Machine

/-- The sequencer is deterministic (R152). -/
theorem Transition.unique {c : Cfg} {s t u : State} (ht : Transition c s t) (hu : Transition c s u) : t = u :=
  Host.Outcome.next.inj ((sequenced_of_transition ht).symm.trans (sequenced_of_transition hu))

/-- With no reset asserted and no unit operation presented, the step is a transition of the sequencer and the tick. -/
theorem stepWith_of_transition {c : Cfg} {s u : State} (hu : s.unitSel = none) (hr : (inputs s).rst = false)
    (h : Transition c s u) : stepWith c s = .next (tick u) := by
  rcases step_cases c s with ⟨b, hb, -⟩ | ⟨-, hr', -⟩ | ⟨-, -, v, hv, hstep⟩
  · simp [hu] at hb
  · simp [hr] at hr'
  · rw [hstep, (transition_of_sequenced hv).unique h]

/-- The same for the machine's own step. -/
theorem step_eq_of_transition {s u : State} (hu : s.unitSel = none) (hr : (inputs s).rst = false)
    (h : Transition installed s u) : step s = .next (tick u) :=
  (step_eq_stepWith s).trans (stepWith_of_transition hu hr h)

/-- The sequencer always has a transition (R152). -/
theorem exists_transition (c : Cfg) {s : State} (hu : s.unitSel = none) : ∃ t, Transition c s t := by
  obtain ⟨t, ht, -⟩ := sequenced_next c s hu
  exact ⟨t, transition_of_sequenced ht⟩

/-- Settles O9: an accepted command always has its effect, and the fetched word is the offered one. -/
theorem offeredCommandIsAccepted : Obligations.OfferedCommandIsAccepted := by
  unfold Obligations.OfferedCommandIsAccepted
  refine ⟨acceptEvent_iff, fun s hu ha => ?_⟩
  obtain ⟨hr, -, -⟩ := (acceptEvent_iff s).mp ha
  obtain ⟨t, ht⟩ := acceptWith_next installed (inputs s).cmdOp (inputs s).cmdData s
  have hfetch : fetch s = decode (.cmd ((inputs s).cmdOp ++ (inputs s).cmdData)) := by
    simp [fetch, fetchCode, hu, ha, commandWord]
  have hexec : exec (fetch s) s = .next t := by
    rw [hfetch, exec_eq_execWith, ← ht]
    exact (acceptWith_eq installed _ _ s).symm
  exact ⟨t, hfetch ▸ hexec, step_eq_tick hu hr hexec⟩

/-- Settles O12: each row names the sequencer's only transition. -/
theorem transitionsOfTheSequencer : Obligations.TransitionsOfTheSequencer := by
  unfold Obligations.TransitionsOfTheSequencer
  intro s hu hr
  obtain ⟨t, ht⟩ := exists_transition installed hu
  have accept : s.ph = .idle → (inputs s).cmdValid = true → acceptEvent s = true :=
    fun hp hv => (acceptEvent_iff s).mpr ⟨hr, hv, hp⟩
  refine ⟨tick t, step_eq_of_transition hu hr ht, ?wait, ?nop, ?setkey, ?encrypt, ?decrypt, ?round, ?lastRound, ?final,
    ?hold, ?respond⟩
  case wait =>
    intro hp hv
    obtain rfl := ht.unique (.wait hp fun ha => by simp [acceptEvent, hv] at ha)
    exact ⟨hp, rfl⟩
  case nop =>
    intro hp _ hop
    obtain rfl := ht.unique (.wait hp fun _ => hop)
    exact ⟨hp, rfl⟩
  case setkey =>
    intro hp hv hop
    obtain rfl := ht.unique (.setkey (accept hp hv) hop)
    simp [hp]
  case encrypt =>
    intro hp hv hop
    obtain rfl := ht.unique (.encrypt (accept hp hv) hop)
    simp
  case decrypt =>
    intro hp hv hop
    obtain rfl := ht.unique (.decrypt (accept hp hv) hop)
    simp
  case round =>
    intro hp hlt
    obtain rfl := ht.unique (.round hp)
    simp [show s.rnd ≠ 15#4 from BitVec.ne_of_lt hlt, hp]
  case lastRound =>
    intro hp h15
    obtain rfl := ht.unique (.round hp)
    simp [h15]
  case final =>
    intro hp
    obtain rfl := ht.unique (.final hp)
    exact ⟨rfl, rfl⟩
  case hold =>
    intro hp hn
    obtain rfl := ht.unique (.hold hp (by simp [respondEvent, hn]))
    exact ⟨hp, rfl⟩
  case respond =>
    intro hp hy
    obtain rfl := ht.unique (.respond hp ((respondEvent_iff s).mpr ⟨hy, hr⟩))
    exact ⟨rfl, rfl⟩

/-- While a command is in progress nothing is accepted (R140). -/
theorem acceptEvent_of_busy {s : State} (h : s.ph ≠ .idle) : acceptEvent s = false := by
  simp [acceptEvent, cmdReady, h]

/-- While a command is in progress the levels on the command port do not tell the transition apart (R140). -/
theorem Transition.withInputs_of_busy {c : Cfg} {s t : State} {p q : PortsIn} (h : Transition c (withInputs p s) t)
    (busy : s.ph ≠ .idle) (hrst : q.rst = p.rst) (hready : q.rspReady = p.rspReady) :
    ∃ u, Transition c (withInputs q s) u ∧ tick u = tick t := by
  have hrespond : respondEvent (withInputs q s) = respondEvent (withInputs p s) := by
    simp [respondEvent, inputs, hrst, hready]
  cases h with
  | wait idle => exact absurd idle busy
  | setkey accepted | encrypt accepted | decrypt accepted => exact absurd (idle_of_acceptEvent accepted) busy
  | round inRound => exact ⟨_, .round inRound, by rw [advanceRound_eq, advanceRound_eq]; rfl⟩
  | final inFinal => exact ⟨_, .final inFinal, rfl⟩
  | respond inResp taken => exact ⟨_, .respond inResp (hrespond.trans taken), rfl⟩
  | hold inResp untaken => exact ⟨_, .hold inResp (hrespond.trans untaken), rfl⟩

/-- Settles O10: a reset edge overrides the port, and no transition of a busy sequencer reads it. -/
theorem commandPortIgnoredWhileBusy : Obligations.CommandPortIgnoredWhileBusy := by
  unfold Obligations.CommandPortIgnoredWhileBusy
  intro s valid op d hu busy
  obtain ⟨t, ht⟩ := step_has_next (withInputs (inputs s) s)
  rw [ht, step_next_iff]
  rcases (step_next_iff _ t).mp ht with ⟨b, hb, -⟩ | ⟨-, hr, rfl⟩ | ⟨-, hr, u, hsu, rfl⟩
  · exact absurd (hu.symm.trans hb) (by simp)
  · exact .inr (.inl ⟨hu, hr, rfl⟩)
  · obtain ⟨v, hv, htick⟩ := hsu.withInputs_of_busy
      (q := { inputs s with cmdValid := valid, cmdOp := op, cmdData := d }) busy rfl rfl
    exact .inr (.inr ⟨hu, hr, v, hv, htick.symm⟩)

/-- A transition of a command in progress leaves `KEYREG` as it is and is the same with any other (R157). -/
theorem Transition.keyreg_of_busy {c : Cfg} {s t : State} (h : Transition c s t) (busy : s.ph ≠ .idle) (k : PermKey) :
    t.keyreg = s.keyreg ∧ Transition c { s with keyreg := k } { t with keyreg := k } := by
  cases h with
  | wait idle => exact absurd idle busy
  | setkey accepted | encrypt accepted | decrypt accepted => exact absurd (idle_of_acceptEvent accepted) busy
  | round inRound =>
    refine ⟨advanceRound_keyreg _ s, ?_⟩
    have other : Transition c { s with keyreg := k } _ := .round inRound
    rw [advanceRound_eq] at other ⊢
    exact other
  | final inFinal => exact ⟨rfl, .final (s := { s with keyreg := k }) inFinal⟩
  | respond inResp taken => exact ⟨rfl, .respond (s := { s with keyreg := k }) inResp taken⟩
  | hold inResp untaken => exact ⟨rfl, .hold inResp untaken⟩

/-- Settles O51: neither a reset edge nor a transition of a busy sequencer reads or writes `KEYREG`. -/
theorem setkeyNeverAffectsACommandInFlight : Obligations.SetkeyNeverAffectsACommandInFlight := by
  unfold Obligations.SetkeyNeverAffectsACommandInFlight
  intro s k busy hu
  cases hr : (inputs s).rst with
  | true =>
    refine ⟨tick (resetEdge s), (step_next_iff s _).mpr (.inr (.inl ⟨hu, hr, rfl⟩)), rfl, ?_⟩
    exact (step_next_iff _ _).mpr (.inr (.inl ⟨hu, hr, rfl⟩))
  | false =>
    obtain ⟨t, ht⟩ := exists_transition installed hu
    obtain ⟨same, other⟩ := ht.keyreg_of_busy busy k
    exact ⟨tick t, step_eq_of_transition hu hr ht, same,
      step_eq_of_transition (s := { s with keyreg := k }) hu hr other⟩

/-- A transition of the sequencer hands a response over exactly at a respond event in RESP (R150, R161). -/
theorem Transition.response_handed_over {c : Cfg} {s t : State} (h : Transition c s t) :
    (s.ph = .resp ∧ respondEvent s = true ∧ t.taken = s.taken ++ [s.dout] ∧ t.ph = .idle) ∨
    (t.taken = s.taken ∧ ¬ (s.ph = .resp ∧ respondEvent s = true)) := by
  cases h with
  | respond inResp taken => exact .inl ⟨inResp, taken, rfl, rfl⟩
  | hold _ untaken => exact .inr ⟨rfl, by simp [untaken]⟩
  | wait idle => exact .inr ⟨rfl, by simp [idle]⟩
  | setkey accepted | encrypt accepted | decrypt accepted => exact .inr ⟨rfl, by simp [idle_of_acceptEvent accepted]⟩
  | round inRound => exact .inr ⟨by simp, by simp [inRound]⟩
  | final inFinal => exact .inr ⟨rfl, by simp [inFinal]⟩

/-- Settles O53, by the kind of the edge: a unit operation and a reset edge hand over nothing. -/
theorem responsesOnlyAtRespondEvents : Obligations.ResponsesOnlyAtRespondEvents := by
  unfold Obligations.ResponsesOnlyAtRespondEvents
  intro s t h
  rcases (step_next_iff s t).mp h with ⟨b, hu, rfl⟩ | ⟨-, hr, rfl⟩ | ⟨hu, hr, u, hsu, rfl⟩
  · exact .inr ⟨rfl, by simp [hu]⟩
  · exact .inr ⟨rfl, by simp [hr]⟩
  · rcases hsu.response_handed_over with ⟨hp, hresp, htaken, hidle⟩ | ⟨same, noEvent⟩
    · exact .inl ⟨hu, hp, ((respondEvent_iff s).mp hresp).1, hr, htaken, hidle⟩
    · refine .inr ⟨same, ?_⟩
      rintro ⟨-, hp, hready, hr⟩
      exact noEvent ⟨hp, (respondEvent_iff s).mpr ⟨hready, hr⟩⟩

end Sys2Proof.Machine
end

section
/-! Decryption undoes encryption (R154). With the two halves exchanged, round `r` of `DECRYPT` takes back round `15 - r`
of `ENCRYPT`, as its subkey is that round's (R118, R133); the crossed reassembly before FP is that exchange (R151). -/

namespace Sys2Proof.Machine

/-- The block halves of `v` are those of `w` exchanged. -/
def exchanged (v w : Work) : Prop := v.l = w.r ∧ v.r = w.l

/-- Round `r` of `ENCRYPT` on the block halves: a Feistel round with `EK(r)`. -/
theorem encRounds_succ_halves (c : Cfg) (k : PermKey) (x : Block) {r : Nat} (hr : r < 16) :
    (encRounds c (r + 1) (ksLoad k x)).l = (encRounds c r (ksLoad k x)).r ∧
    (encRounds c (r + 1) (ksLoad k x)).r = (encRounds c r (ksLoad k x)).l ^^^
      roundFunction c (encRounds c r (ksLoad k x)).r (encSubkey c k r) := by
  rw [← encRounds_subkey c k x hr]
  exact ⟨rfl, rfl⟩

/-- `KS.REV` leaves the block halves alone (R115). -/
theorem ksRev_halves (c : Cfg) (r : Nat) (w : Work) : (ksRev c r w).l = w.l ∧ (ksRev c r w).r = w.r := by
  unfold ksRev
  split <;> exact ⟨rfl, rfl⟩

/-- Round `r` of `DECRYPT` on the block halves: a Feistel round with `DK(r)`. -/
theorem decRounds_succ_halves (c : Cfg) (k : PermKey) (x : Block) {r : Nat} (hr : r < 16) :
    (decRounds c (r + 1) (ksLoad k x)).l = (decRounds c r (ksLoad k x)).r ∧
    (decRounds c (r + 1) (ksLoad k x)).r = (decRounds c r (ksLoad k x)).l ^^^
      roundFunction c (decRounds c r (ksLoad k x)).r (decSubkey c k r) := by
  have subkey := decRounds_subkey c k x hr
  rw [ksPrerot_eq] at subkey
  obtain ⟨hl, hr⟩ := ksRev_halves c r (decRounds c r (ksLoad k x))
  rw [← subkey, ← hl, ← hr]
  exact ⟨rfl, rfl⟩

/-- From the exchanged result of `ENCRYPT`, `n` rounds of `DECRYPT` take back the last `n` rounds of `ENCRYPT`. -/
theorem decRounds_exchanged (c : Cfg) (k : PermKey) (x y : Block) {n : Nat} (hn : n ≤ 16)
    (start : exchanged (ksLoad k y) (encRounds c 16 (ksLoad k x))) :
    exchanged (decRounds c n (ksLoad k y)) (encRounds c (16 - n) (ksLoad k x)) := by
  induction n with
  | zero => exact start
  | succ n ih =>
    obtain ⟨hl, hr⟩ := ih (Nat.le_of_succ_le hn)
    have hround : 16 - n = 15 - n + 1 := by omega
    have hprev : 16 - (n + 1) = 15 - n := by omega
    obtain ⟨encL, encR⟩ := encRounds_succ_halves c k x (r := 15 - n) (by omega)
    obtain ⟨decL, decR⟩ := decRounds_succ_halves c k y (r := n) hn
    rw [hround, encR] at hl
    rw [hround, encL] at hr
    rw [hprev]
    refine ⟨decL.trans hr, ?_⟩
    rw [decR, hl, hr, decSubkey_eq_encSubkey c k hn, BitVec.xor_assoc, BitVec.xor_self, BitVec.xor_zero]

/-- The two parts of a word put together again (R9). -/
theorem append_parts {m n : Nat} (x : BitVec (m + n)) : x.extractLsb' n m ++ x.extractLsb' 0 n = x :=
  (BitVec.extractLsb'_append_extractLsb'_eq_extractLsb' (Nat.zero_add n).symm).trans BitVec.extractLsb'_eq_self

/-- `Dec` undoes `Enc` under the same `KEYREG` (R154). -/
theorem decBlock_encBlock (c : Cfg) (k : PermKey) (block : Block) : decBlock c k (encBlock c k block) = block := by
  have start : exchanged (ksLoad k (selectIp c (encBlock c k block)))
      (encRounds c 16 (ksLoad k (selectIp c block))) := by
    rw [encBlock, finalBlock, selectIp_selectFp]
    exact ⟨append_upper _ _, append_lower _ _⟩
  obtain ⟨hl, hr⟩ := decRounds_exchanged c k _ _ le_rfl start
  rw [decBlock, decStart_eq, finalBlock, crossed, hl, hr]
  exact (congrArg (selectFp c) (append_parts (m := 32) (n := 32) (selectIp c block))).trans (selectFp_selectIp c block)

/-- Settles O46: R154's direction round by round, and the rest because a block has finitely many values. -/
theorem decryptionUndoesEncryption : Obligations.DecryptionUndoesEncryption := by
  unfold Obligations.DecryptionUndoesEncryption
  intro c k
  have left : Function.LeftInverse (decBlock c k) (encBlock c k) := decBlock_encBlock c k
  have bijective : Function.Bijective (encBlock c k) := Finite.injective_iff_bijective.mp left.injective
  have right : Function.RightInverse (decBlock c k) (encBlock c k) :=
    left.rightInverse_of_surjective bijective.surjective
  exact ⟨left, right, bijective, Function.bijective_iff_has_inverse.mpr ⟨encBlock c k, right, left⟩⟩

end Sys2Proof.Machine
end

section
/-! Encryption is not the identity (R156): under the key of ones every subkey is ones, and the halves of the zero block
come back to zero every third round. -/

namespace Sys2Proof.Machine

open Safety

theorem selectPc1_allOnes (c : Cfg) : selectPc1 c (BitVec.allOnes 64) = BitVec.allOnes 56 :=
  applyTable_bank_allOnes c .pc1

theorem selectPc2_allOnes (c : Cfg) : selectPc2 c (BitVec.allOnes 56) = BitVec.allOnes 48 :=
  applyTable_bank_allOnes c .pc2

theorem selectIp_zero (c : Cfg) : selectIp c 0 = 0 := applyTable_zero 64 64 c.rom.ip

/-- Ones rotate to ones (R110). -/
theorem rotl28_allOnes {n : Nat} (hn : n ≤ 28) : rotl28 (BitVec.allOnes 28) n = BitVec.allOnes 28 := by
  apply BitVec.eq_of_getLsbD_eq
  intro i hi
  rw [rotl28_bit _ n i hn]
  simp only [BitVec.getLsbD_allOnes, hi]
  split <;> simp <;> omega

/-- With the permuted key of ones every subkey of `ENCRYPT` is ones (R118, R92 (iii)). -/
theorem encSubkey_allOnes (c : Cfg) {r : Nat} (hr : r < 16) :
    encSubkey c (BitVec.allOnes 56) r = BitVec.allOnes 48 := by
  have turns : turned false (r + 1) ≤ 28 := by
    obtain ⟨hle, hsucc⟩ := turned_enc_succ c hr
    omega
  have first : firstKeyHalf (BitVec.allOnes 56) = BitVec.allOnes 28 := by decide
  have second : secondKeyHalf (BitVec.allOnes 56) = BitVec.allOnes 28 := by decide
  have both : BitVec.allOnes 28 ++ BitVec.allOnes 28 = BitVec.allOnes 56 := by decide
  simp only [encSubkey_eq c _ hr, ksSubkey, turnLeft, ksLoad, first, second, rotl28_allOnes turns, both,
    selectPc2_allOnes]

/-- One round of `ENCRYPT` of the zero block under the key of ones, from known block halves. -/
theorem encRounds_ones_succ (c : Cfg) {r : Nat} (hr : r < 16) {a b : Half}
    (h : (encRounds c r (ksLoad (BitVec.allOnes 56) 0)).l = a ∧ (encRounds c r (ksLoad (BitVec.allOnes 56) 0)).r = b) :
    (encRounds c (r + 1) (ksLoad (BitVec.allOnes 56) 0)).l = b ∧
    (encRounds c (r + 1) (ksLoad (BitVec.allOnes 56) 0)).r = a ^^^ roundFunction c b (BitVec.allOnes 48) := by
  obtain ⟨rfl, rfl⟩ := h
  rw [← encSubkey_allOnes c hr]
  exact encRounds_succ_halves c _ 0 hr

/-- Under the key of ones the halves go from `(0, 0)` to `(0, ones)`, `(ones, 0)` and back to `(0, 0)`. -/
theorem encRounds_ones_third (c : Cfg) {m : Nat} (hm : 3 * m < 16) :
    (encRounds c (3 * m) (ksLoad (BitVec.allOnes 56) 0)).l = 0#32 ∧
    (encRounds c (3 * m) (ksLoad (BitVec.allOnes 56) 0)).r = 0#32 := by
  induction m with
  | zero => exact ⟨rfl, rfl⟩
  | succ m ih =>
    have first := encRounds_ones_succ c (by omega) (ih (by omega))
    rw [roundFunction_zero_allOnes, BitVec.zero_xor] at first
    have second := encRounds_ones_succ c (by omega) first
    rw [roundFunction_allOnes_allOnes, BitVec.xor_zero] at second
    have third := encRounds_ones_succ c (by omega) second
    rwa [roundFunction_zero_allOnes, BitVec.xor_self] at third

/-- After round 15 the halves are `(0, ones)`, as fifteen rounds are five times three (R156). -/
theorem encRounds_ones_zero (c : Cfg) :
    (encRounds c 16 (encStart c (BitVec.allOnes 56) 0)).l = 0#32 ∧
    (encRounds c 16 (encStart c (BitVec.allOnes 56) 0)).r = BitVec.allOnes 32 := by
  have last := encRounds_ones_succ c (by decide) (encRounds_ones_third c (m := 5) (by decide))
  rw [roundFunction_zero_allOnes, BitVec.zero_xor] at last
  rwa [encStart, selectIp_zero]

/-- The response to the zero block under the key of ones (R151, R156). -/
theorem encryptTwo_ones_zero (c : Cfg) :
    encryptTwo c (BitVec.allOnes 64) 0 = selectFp c 0xFFFFFFFF00000000 := by
  obtain ⟨hl, hr⟩ := encRounds_ones_zero c
  have value : crossed 0#32 (BitVec.allOnes 32) = 0xFFFFFFFF00000000 := by decide
  rw [encryptTwo, selectPc1_allOnes, encBlock, finalBlock, hl, hr, value]

/-- FP gives zero for zero alone, since IP undoes it (R92). -/
theorem selectFp_ne_zero (c : Cfg) {x : Block} (hx : x ≠ 0) : selectFp c x ≠ 0 := by
  intro h
  apply hx
  rw [← selectIp_selectFp c x, h, selectIp_zero]

/-- Settles O47, step by step as the spec derives it. -/
theorem encryptionIsNotTheIdentity : Obligations.EncryptionIsNotTheIdentity := by
  unfold Obligations.EncryptionIsNotTheIdentity
  intro c
  obtain ⟨hl, hr⟩ := encRounds_ones_zero c
  have response := encryptTwo_ones_zero c
  exact ⟨selectPc1_allOnes c, fun r => encSubkey_allOnes c, hl, hr, response,
    response ▸ selectFp_ne_zero c (by decide)⟩

end Sys2Proof.Machine
end

section
/-! A command in progress (R142, R143, R147 to R152): what the engine will respond, which every transition keeps, and
how many steps it still takes. So no proof about a whole command traces it through its steps. -/

namespace Sys2Proof.Machine

/-- What a transition never writes: the host's levels, the counter and the unit's selector. -/
theorem Transition.keeps {c : Cfg} {s t : State} (h : Transition c s t) :
    t.ports = s.ports ∧ t.draw = s.draw ∧ t.unitSel = s.unitSel := by
  cases h <;> simp

/-- A transition of a command in progress leaves the key alone (R37, R157). -/
theorem Transition.key_of_busy {c : Cfg} {s t : State} (h : Transition c s t) (busy : s.ph ≠ .idle) :
    t.keyreg = s.keyreg ∧ t.kv = s.kv := by
  rcases h.key_written_by_setkey with ⟨accepted, -⟩ | same
  · exact absurd (idle_of_acceptEvent accepted) busy
  · exact same

/-- The working registers the accept step of a direction writes (R145, R146). -/
def blockStart (c : Cfg) (dir : Bool) (k : PermKey) (block : Block) : Work :=
  if dir then decStart c k block else encStart c k block

/-- The working registers after the first `n` rounds of a direction (R142, R143). -/
def blockRounds (c : Cfg) (dir : Bool) (n : Nat) (w : Work) : Work :=
  if dir then decRounds c n w else encRounds c n w

/-- `Enc` or `Dec` of a block, by direction (R142, R143). -/
def blockResponse (c : Cfg) (dir : Bool) (k : PermKey) (block : Block) : Block :=
  if dir then decBlock c k block else encBlock c k block

/-- `Enc` and `Dec` are FP of sixteen rounds from their start. -/
theorem finalBlock_blockRounds (c : Cfg) (dir : Bool) (k : PermKey) (block : Block) :
    finalBlock c (blockRounds c dir 16 (blockStart c dir k block)) = blockResponse c dir k block := by
  cases dir <;> simp [blockRounds, blockStart, blockResponse, encBlock, decBlock]

theorem blockRounds_succ (c : Cfg) (dir : Bool) (n : Nat) (w : Work) : blockRounds c dir (n + 1) w =
    if dir then decRound c n (blockRounds c dir n w) else encRound c n (blockRounds c dir n w) := by
  cases dir <;> simp [blockRounds, decRounds, encRounds]

/-- The round step takes the working registers one round further (R147, R148). -/
theorem roundWork_of_blockRounds {c : Cfg} {s : State} {w : Work} (h : s.work = blockRounds c s.dir s.rnd.toNat w) :
    roundWork c s = blockRounds c s.dir (s.rnd.toNat + 1) w := by
  rw [blockRounds_succ, ← h]
  rfl

/-- Before the last round the index counts up (R147). -/
theorem rnd_succ_toNat {r : RoundIdx} (h : r ≠ 15#4) : (r + 1#4).toNat = r.toNat + 1 := by
  revert r
  decide

/-- A command is in progress whose response will be, or is, `b`. -/
def Responding (c : Cfg) (b : Block) (s : State) : Prop :=
  match s.ph with
  | .idle => False
  | .round => ∃ w, s.work = blockRounds c s.dir s.rnd.toNat w ∧ finalBlock c (blockRounds c s.dir 16 w) = b
  | .final => finalBlock c s.work = b
  | .resp => s.dout = b

theorem Responding.busy {c : Cfg} {b : Block} {s : State} (h : Responding c b s) : s.ph ≠ .idle := by
  intro idle
  simp [Responding, idle] at h

theorem Responding.dout {c : Cfg} {b : Block} {s : State} (h : Responding c b s) (hp : s.ph = .resp) : s.dout = b := by
  simpa [Responding, hp] using h

/-- The accept step starts the computation of the response (R145, R146). -/
theorem responding_startBlock (c : Cfg) (dir : Bool) (k : PermKey) (block : Block) (s : State) :
    Responding c (blockResponse c dir k block) (startBlock dir (blockStart c dir k block) s) := by
  refine ⟨blockStart c dir k block, ?_, finalBlock_blockRounds c dir k block⟩
  cases dir <;> rfl

/-- A round step keeps the response on course; the last one hands the rounds' result to the final step. -/
theorem responding_advanceRound {c : Cfg} {b : Block} {s : State} (hp : s.ph = .round) (hs : Responding c b s) :
    Responding c b (advanceRound (roundWork c s) s) := by
  simp only [Responding, hp] at hs
  obtain ⟨w, hw, hb⟩ := hs
  have next := roundWork_of_blockRounds hw
  by_cases last : s.rnd = 15#4
  · rw [last] at next
    simp only [Responding, advanceRound_ph, last, if_true, advanceRound_work]
    rw [next]
    exact hb
  · simp only [Responding, advanceRound_ph, last, if_false, hp, advanceRound_work, advanceRound_dir, advanceRound_rnd,
      rnd_succ_toNat last]
    exact ⟨w, next, hb⟩

/-- A transition of a command in progress keeps its response on course, or is the respond event that hands it over. -/
theorem Transition.responding {c : Cfg} {s t : State} {b : Block} (h : Transition c s t) (hs : Responding c b s) :
    (Responding c b t ∧ t.taken = s.taken ∧ ¬ respondsNow s = true) ∨
    (respondsNow s = true ∧ t = { s with taken := s.taken ++ [b], ph := .idle }) := by
  cases h with
  | wait idle => exact absurd idle hs.busy
  | setkey accepted | encrypt accepted | decrypt accepted => exact absurd (idle_of_acceptEvent accepted) hs.busy
  | round inRound =>
    exact .inl ⟨responding_advanceRound inRound hs, advanceRound_taken _ s, by simp [respondsNow, rspValid, inRound]⟩
  | final inFinal =>
    simp only [Responding, inFinal] at hs
    exact .inl ⟨hs, rfl, by simp [respondsNow, rspValid, inFinal]⟩
  | respond inResp taken => exact .inr ⟨by simp [respondsNow, rspValid, inResp, taken], by rw [hs.dout inResp]⟩
  | hold inResp untaken => exact .inl ⟨hs, rfl, by simp [respondsNow, untaken]⟩

/-- The steps a command in progress takes until RESP: the rounds that remain and the final step (R152). -/
def stepsToResponse (s : State) : Nat :=
  match s.ph with
  | .idle => 0
  | .round => 17 - s.rnd.toNat
  | .final => 1
  | .resp => 0

theorem stepsToResponse_startBlock (dir : Bool) (w : Work) (s : State) :
    stepsToResponse (startBlock dir w s) = 17 := rfl

/-- Until RESP every transition is one of the steps that remain. -/
theorem Transition.stepsToResponse_eq {c : Cfg} {s t : State} (h : Transition c s t)
    (hs : s.ph = .round ∨ s.ph = .final) : stepsToResponse s = stepsToResponse t + 1 := by
  cases h with
  | wait idle => simp [idle] at hs
  | setkey accepted | encrypt accepted | decrypt accepted => simp [idle_of_acceptEvent accepted] at hs
  | round inRound =>
    by_cases last : s.rnd = 15#4
    · simp [stepsToResponse, inRound, last]
    · have hlt : s.rnd.toNat < 16 := s.rnd.isLt
      simp only [stepsToResponse, inRound, advanceRound_ph, last, if_false, advanceRound_rnd,
        rnd_succ_toNat last]
      omega
  | final inFinal => simp [stepsToResponse, inFinal]
  | respond inResp | hold inResp => simp [inResp] at hs

/-- A command in progress is in RESP exactly when no step remains until it. -/
theorem Responding.resp_iff {c : Cfg} {b : Block} {s : State} (h : Responding c b s) :
    s.ph = .resp ↔ stepsToResponse s = 0 := by
  have hlt : s.rnd.toNat < 16 := s.rnd.isLt
  have busy := h.busy
  cases hp : s.ph with
  | idle => exact absurd hp busy
  | round => simp [stepsToResponse, hp]; omega
  | final => simp [stepsToResponse, hp]
  | resp => simp [stepsToResponse, hp]

end Sys2Proof.Machine
end

section
/-! A whole command over the steps of the machine at any configuration (R153): the accept, the steps until RESP, the
waits, and the respond event. -/

namespace Sys2Proof.Machine

open Safety

/-- Steps compose. -/
theorem stepsWith_add {c : Cfg} {m : Nat} (n : Nat) {s t : State} (h : stepsWith c m s = .next t) :
    stepsWith c (m + n) s = stepsWith c n t := by
  induction m generalizing s with
  | zero =>
    cases h
    rw [Nat.zero_add]
  | succ m ih =>
    rw [Nat.succ_add]
    simp only [stepsWith] at h ⊢
    cases hs : stepWith c s with
    | next u => rw [hs] at h; exact ih h
    | fault f => cases f
    | refused r => rw [hs] at h; cases h

/-- A step of the machine is a transition of the sequencer, and the steps go on from there. -/
theorem stepsWith_succ {c : Cfg} (n : Nat) {s u : State} (hu : s.unitSel = none) (hr : (inputs s).rst = false)
    (h : Transition c s u) : stepsWith c (n + 1) s = stepsWith c n (tick u) := by
  rw [stepsWith, stepWith_of_transition hu hr h]

/-- The runs of the claims are the steps at the installed configuration. -/
theorem run_eq_stepsWith (n : Nat) (s : State) : run n s = stepsWith installed n s := by
  induction n generalizing s with
  | zero => rfl
  | succ n ih =>
    rw [run, stepsWith, step_eq_stepWith]
    cases stepWith installed s with
    | next t => exact ih t
    | fault f => rfl
    | refused r => rfl

/-- What holds of the levels the host presents at the steps to come, and of low levels, holds of the next inputs. -/
theorem inputs_of_forall {P : PortsIn → Prop} {s : State} {n : Nat} (quiet : P PortsIn.quiet)
    (h : ∀ p ∈ s.ports.take (n + 1), P p) : P (inputs s) := by
  unfold inputs
  cases hp : s.ports with
  | nil => exact quiet
  | cons p ps => exact h p (by simp [hp])

/-- What holds of the levels of `n + 1` steps holds of those of the `n` steps after the first. -/
theorem forall_take_tail {P : PortsIn → Prop} {ps : List PortsIn} {n : Nat} (h : ∀ p ∈ ps.take (n + 1), P p) :
    ∀ p ∈ ps.tail.take n, P p := by
  cases ps with
  | nil => simp
  | cons q qs => exact fun p hp => h p (List.mem_cons_of_mem q hp)

/-- Without reset a command in progress reaches RESP with its response after the steps that remain (R152, R157). -/
theorem stepsWith_toResponse (c : Cfg) {b : Block} {n : Nat} {s : State} (hn : stepsToResponse s = n)
    (hu : s.unitSel = none) (hs : Responding c b s) (rst : noReset (s.ports.take n)) :
    ∃ t, stepsWith c n s = .next t ∧ t.ph = .resp ∧ t.dout = b ∧ t.keyreg = s.keyreg ∧ t.kv = s.kv ∧
      t.taken = s.taken ∧ t.unitSel = none ∧ t.ports = s.ports.drop n := by
  induction n generalizing s with
  | zero =>
    have hp := hs.resp_iff.mpr hn
    exact ⟨s, rfl, hp, hs.dout hp, rfl, rfl, rfl, hu, rfl⟩
  | succ n ih =>
    have before : s.ph = .round ∨ s.ph = .final := by
      cases hp : s.ph <;> simp [stepsToResponse, hp] at hn ⊢
    obtain ⟨u, hsu⟩ := exists_transition c hu
    obtain ⟨hports, -, hunit⟩ := hsu.keeps
    obtain ⟨hkey, hkv⟩ := hsu.key_of_busy hs.busy
    rcases hsu.responding hs with ⟨hnext, htaken, -⟩ | ⟨now, -⟩
    · have hremain : stepsToResponse (tick u) = n := Nat.succ.inj ((hsu.stepsToResponse_eq before).symm.trans hn)
      have hrest : (tick u).ports = s.ports.tail := congrArg List.tail hports
      obtain ⟨t, ht, hp, hd, htk, htv, htt, htu, htp⟩ :=
        ih hremain (hunit.trans hu) hnext (hrest ▸ forall_take_tail rst)
      refine ⟨t, ?_, hp, hd, htk.trans hkey, htv.trans hkv, htt.trans htaken, htu, ?_⟩
      · rw [stepsWith_succ n hu (inputs_of_forall (P := fun p => p.rst = false) rfl rst) hsu, ht]
      · rw [htp, hrest, List.drop_tail]
    · rcases before with hp | hp <;> simp [respondsNow, rspValid, hp] at now

/-- While the host neither takes the response nor resets, the engine waits in RESP with every register as it was
(R150, R152; log 11). -/
theorem stepsWith_hold (c : Cfg) {n : Nat} {s : State} (hp : s.ph = .resp) (hu : s.unitSel = none)
    (waits : ∀ p ∈ s.ports.take n, p.rspReady = false ∧ p.rst = false) :
    stepsWith c n s = .next { s with ports := s.ports.drop n, draw := s.draw + n } := by
  induction n generalizing s with
  | zero => rfl
  | succ n ih =>
    obtain ⟨hready, hr⟩ := inputs_of_forall (P := fun p => p.rspReady = false ∧ p.rst = false) ⟨rfl, rfl⟩ waits
    have held : Transition c s s := .hold hp (by simp [respondEvent, hready])
    rw [stepsWith_succ n hu hr held, ih (s := tick s) hp hu (forall_take_tail waits), tick_ports, List.drop_tail,
      tick_draw, Nat.add_right_comm]
    rfl

/-- In RESP, a step at which the host takes the response (R150). -/
theorem stepsWith_respond (c : Cfg) {s : State} (hp : s.ph = .resp) (hu : s.unitSel = none)
    (hready : (inputs s).rspReady = true) (hr : (inputs s).rst = false) :
    stepsWith c 1 s = .next (tick { s with taken := s.taken ++ [s.dout], ph := .idle }) := by
  have taken : Transition c s _ := .respond hp ((respondEvent_iff s).mpr ⟨hready, hr⟩)
  rw [stepsWith_succ 0 hu hr taken]
  rfl

/-- The levels of a host from the offer of a block command to the step at which it takes the response, with no reset: the
offer, the sixteen rounds and the final step, the waits, and the taking (R150, R152). -/
structure BlockLevels (first : PortsIn) (mid waits : List PortsIn) (last : PortsIn) : Prop where
  first_rst : first.rst = false
  mid_length : mid.length = 17
  mid_rst : noReset mid
  waits_hold : ∀ p ∈ waits, p.rspReady = false ∧ p.rst = false
  last_ready : last.rspReady = true
  last_rst : last.rst = false

/-- A block command from its accept to its respond event: the host is handed the response the accept step started, and
the engine is idle with the key as it was (R153). -/
theorem stepsWith_block (c : Cfg) {s u : State} {b : Block} {first last : PortsIn} {mid waits rest : List PortsIn}
    (hu : s.unitSel = none) (hports : s.ports = first :: (mid ++ (waits ++ last :: rest)))
    (levels : BlockLevels first mid waits last) (accepted : Transition c s u) (started : Responding c b u)
    (hsteps : stepsToResponse u = 17) :
    ∃ t, stepsWith c (19 + waits.length) s = .next t ∧ t.ph = .idle ∧ t.keyreg = u.keyreg ∧ t.kv = u.kv ∧
      t.unitSel = none ∧ t.ports = rest ∧ t.taken = u.taken ++ [b] := by
  obtain ⟨hfirst, hlen, hmid, hwaits, hready, hlast⟩ := levels
  obtain ⟨hup, -, huu⟩ := accepted.keeps
  have hrst : (inputs s).rst = false := by simp [inputs, hports, hfirst]
  have haccept : stepsWith c 1 s = .next (tick u) := stepsWith_succ 0 hu hrst accepted
  have hafter : (tick u).ports = mid ++ (waits ++ last :: rest) := by simp [hup, hports]
  obtain ⟨v, hv, vp, vd, vk, vv, vt, vu, vports⟩ := stepsWith_toResponse c (s := tick u) hsteps (huu.trans hu) started
    (by rwa [hafter, ← hlen, List.take_left])
  rw [hafter, ← hlen, List.drop_left] at vports
  have hwait := stepsWith_hold c (n := waits.length) vp vu (by rwa [vports, List.take_left])
  rw [vports, List.drop_left] at hwait
  have hrespond := stepsWith_respond c
    (s := { v with ports := last :: rest, draw := v.draw + waits.length }) vp vu hready hlast
  have hall := (stepsWith_add _ haccept).trans ((stepsWith_add _ hv).trans ((stepsWith_add 1 hwait).trans hrespond))
  have hsplit : 19 + waits.length = 1 + (17 + (waits.length + 1)) := by omega
  rw [← hsplit] at hall
  exact ⟨_, hall, rfl, vk, vv, vu, rfl, congrArg₂ (fun taken b => taken ++ [b]) vt vd⟩

/-- The accept of a block command, by direction (R145, R146). -/
theorem Transition.acceptBlock (c : Cfg) {s : State} (dir : Bool) (ha : acceptEvent s = true)
    (hop : (inputs s).cmdOp = if dir then 0b11#2 else 0b10#2) :
    Transition c s (startBlock dir (blockStart c dir (keyRead s) (inputs s).cmdData) s) := by
  cases dir with
  | false => exact .encrypt ha hop
  | true => exact .decrypt ha hop

/-- Settles O48: the accept starts `Enc` or `Dec` of `KEYREG`, which the command's steps hand over. -/
theorem machineAgreesWithCommandLevel : Obligations.MachineAgreesWithCommandLevel := by
  unfold Obligations.MachineAgreesWithCommandLevel
  intro s dec block first last mid waits rest hp hk hu hports hvalid hop hdata hfirst hmid hwaits hlast hlen huntaken
    hready
  have levels : BlockLevels first mid waits last :=
    ⟨hfirst, hlen, hmid, fun p hp => ⟨huntaken p hp, hwaits p hp⟩, hready, hlast⟩
  have hinputs : inputs s = first := by simp [inputs, hports]
  have ha : acceptEvent s = true := (acceptEvent_iff s).mpr ⟨by rw [hinputs, hfirst], by rw [hinputs, hvalid], hp⟩
  have accepted := Transition.acceptBlock installed dec ha (by rw [hinputs, hop])
  rw [keyRead_of_kv hk, hinputs, hdata] at accepted
  obtain ⟨t, ht, htp, htk, htv, -, htports, htaken⟩ := stepsWith_block installed hu hports levels accepted
    (responding_startBlock installed dec s.keyreg block s) (stepsToResponse_startBlock dec _ s)
  exact ⟨t, (run_eq_stepsWith _ s).trans ht, htp, htk, htv.trans hk, htports, htaken⟩

end Sys2Proof.Machine
end

section
/-! The four commands at both levels (R10): what accepting a command of the command level does to the engine, for the
programs that are driven and for those that are run. `rsp` is the command's response, if it has one. -/

namespace Sys2Proof.Machine

/-- The host has no response to come and the engine is idle, or the response to come is `b` and the engine is on its
way to it. -/
def Outstanding (c : Cfg) (rsp : Option Block) (s : State) : Prop :=
  match rsp with
  | none => s.ph = .idle
  | some b => Responding c b s

/-- The instructions with a transition at the command level are the commands, and their word is a command word (R70). -/
theorem encode_of_commandLevel {c : Cfg} {i : Instr} {st st' : CmdState} {rsp : Option Block}
    (h : commandLevel c i st = some (st', rsp)) : ∃ w, encode i = .cmd w := by
  cases i with
  | nop | setkey | encrypt | decrypt => exact ⟨_, rfl⟩
  | stepWait | stepRoundEnc | stepRoundDec | stepFinal | stepRespond => cases h
  | applyIp | applyFp | applyPc1 | applyPc2 | applyE | applyS | applyP | rsh => cases h

/-- A command is offered by its whole word, with `cmd_valid` high and `rst` low (R70, R140). -/
theorem offerOf_eq {i : Instr} {w : BitVec 66} (h : encode i = .cmd w) :
    offerOf i = offer (w.extractLsb' 64 2) (w.extractLsb' 0 64) := by
  rw [offerOf, h]

/-- The sequencer accepts the command whose levels the host presents (R140), `rsp_ready` beside them as it may be. -/
theorem sequenced_offer {c : Cfg} {s : State} {i : Instr} {w : BitVec 66} {ready : Bool} (hp : s.ph = .idle)
    (hi : encode i = .cmd w) (hin : inputs s = { offerOf i with rspReady := ready }) :
    acceptEvent s = true ∧ sequenced c s = execWith c i s := by
  rw [offerOf_eq hi] at hin
  have ha : acceptEvent s = true := (acceptEvent_iff s).mpr ⟨by rw [hin]; rfl, by rw [hin]; rfl, hp⟩
  have hop : (inputs s).cmdOp = w.extractLsb' 64 2 := by rw [hin]; rfl
  have hd : (inputs s).cmdData = w.extractLsb' 0 64 := by rw [hin]; rfl
  have hword : (w.extractLsb' 64 2 ++ w.extractLsb' 0 64 : BitVec 66) = w := append_parts (m := 2) (n := 64) w
  have hdecode : decodeCmd w = i := by rw [← decode_encode i, hi]; rfl
  refine ⟨ha, ?_⟩
  rw [sequenced_accept c ha, acceptWith_eq, hop, hd]
  exact congrArg (execWith c · s) ((congrArg decodeCmd hword).trans hdecode)

/-- What the accept of a command of the command level leaves: the command's key, the responses so far, and its response
outstanding, with the rounds and the final step to come. -/
structure Accepted (c : Cfg) (st : CmdState) (rsp : Option Block) (s t : State) : Prop where
  keyreg : t.keyreg = st.keyreg
  kv : t.kv = st.kv
  taken : t.taken = s.taken
  outstanding : Outstanding c rsp t
  steps : rsp.isSome = true → stepsToResponse t = 17

/-- The accept step of a block command with `KV = 1` starts `Enc` or `Dec` of `KEYREG` (R142, R143, R145, R146). -/
theorem accepted_block (c : Cfg) {s : State} (dir : Bool) (block : Block) (hk : s.kv = true) :
    Accepted c ⟨s.keyreg, s.kv⟩ (some (blockResponse c dir s.keyreg block)) s
      (startBlock dir (blockStart c dir (keyRead s) block) s) where
  keyreg := rfl
  kv := rfl
  taken := rfl
  outstanding := by
    rw [keyRead_of_kv hk]
    exact responding_startBlock c dir s.keyreg block s
  steps _ := stepsToResponse_startBlock dir _ s

/-- Accepting a command of the command level is a transition to what the command level says (R141 to R146). -/
theorem transition_of_commandLevel {c : Cfg} {s : State} {i : Instr} {st : CmdState} {rsp : Option Block} {ready : Bool}
    (hp : s.ph = .idle) (hin : inputs s = { offerOf i with rspReady := ready })
    (h : commandLevel c i ⟨s.keyreg, s.kv⟩ = some (st, rsp)) :
    acceptEvent s = true ∧ ∃ t, Transition c s t ∧ Accepted c st rsp s t := by
  obtain ⟨w, hw⟩ := encode_of_commandLevel h
  obtain ⟨ha, hseq⟩ := sequenced_offer (c := c) hp hw hin
  have run : ∀ t, execWith c i s = whenReady s t → Transition c s t := fun t ht =>
    transition_of_sequenced (hseq.trans (ht.trans (whenReady_ready t (cmdReady_of_acceptEvent ha))))
  refine ⟨ha, ?_⟩
  cases i with
  | nop d =>
    cases h
    exact ⟨s, run s rfl, rfl, rfl, rfl, hp, by simp⟩
  | setkey d =>
    cases h
    exact ⟨_, run _ rfl, rfl, rfl, rfl, hp, by simp⟩
  | encrypt d =>
    obtain ⟨hk, heq⟩ := Option.ite_none_right_eq_some.mp h
    cases heq
    exact ⟨_, run _ rfl, accepted_block c false d hk⟩
  | decrypt d =>
    obtain ⟨hk, heq⟩ := Option.ite_none_right_eq_some.mp h
    cases heq
    exact ⟨_, run _ rfl, accepted_block c true d hk⟩
  | stepWait | stepRoundEnc | stepRoundDec | stepFinal | stepRespond => cases h
  | applyIp | applyFp | applyPc1 | applyPc2 | applyE | applyS | applyP | rsh => cases h

/-- A run of the command level goes line by line (R10, R160). -/
theorem runCommands_cons {c : Cfg} {l : CoreLine} {ls : List CoreLine} {st : CmdState} {taken : List Block}
    {goal : CmdState × List Block} (h : runCommands c (l :: ls) st taken = some goal) :
    ∃ i st' rsp, lineCommand taken l = some i ∧ commandLevel c i st = some (st', rsp) ∧
      runCommands c ls st' (taken ++ rsp.toList) = some goal := by
  rw [runCommands] at h
  split at h
  · cases h
  · next i hi =>
      split at h
      · cases h
      · next t hc => exact ⟨i, t, none, hi, hc, by simpa using h⟩
      · next t b hc => exact ⟨i, t, some b, hi, hc, h⟩

end Sys2Proof.Machine
end

section
/-! Programs driven through the sequencer without a pause (R80, R160): one line ends where the command level says, and
so does the program. -/

namespace Sys2Proof.Machine

/-- The levels of a line are the offer of its command and, for a block command, those of its other steps (R80). -/
theorem edgesFor_of_commandLevel {c : Cfg} {i : Instr} {st st' : CmdState} {rsp : Option Block}
    (h : commandLevel c i st = some (st', rsp)) :
    edgesFor i = offerOf i :: if rsp.isSome then blockTail else [] := by
  cases i with
  | nop d => cases h; simp [edgesFor]
  | setkey d => cases h; simp [edgesFor]
  | encrypt d =>
    obtain ⟨-, heq⟩ := Option.ite_none_right_eq_some.mp h
    cases heq
    simp [edgesFor]
  | decrypt d =>
    obtain ⟨-, heq⟩ := Option.ite_none_right_eq_some.mp h
    cases heq
    simp [edgesFor]
  | stepWait | stepRoundEnc | stepRoundDec | stepFinal | stepRespond => cases h
  | applyIp | applyFp | applyPc1 | applyPc2 | applyE | applyS | applyP | rsh => cases h

/-- The host of rule R80 makes no pause after its offer. -/
theorem blockLevels_blockTail {first : PortsIn} (hrst : first.rst = false) :
    BlockLevels first (List.replicate 17 PortsIn.quiet) [] takeResponse where
  first_rst := hrst
  mid_length := List.length_replicate ..
  mid_rst p hp := by rw [List.eq_of_mem_replicate hp]; rfl
  waits_hold := by simp
  last_ready := rfl
  last_rst := rfl

/-- The steps of one line from an idle engine, at the levels the host drives for it, end idle with the key of the
command level and the line's response taken. -/
theorem stepsWith_line {c : Cfg} {s : State} {i : Instr} {st : CmdState} {rsp : Option Block} (hp : s.ph = .idle)
    (hu : s.unitSel = none) (hports : s.ports = edgesFor i)
    (h : commandLevel c i ⟨s.keyreg, s.kv⟩ = some (st, rsp)) :
    ∃ t, stepsWith c (edgesFor i).length s = .next t ∧ t.ph = .idle ∧ t.unitSel = none ∧ t.keyreg = st.keyreg ∧
      t.kv = st.kv ∧ t.taken = s.taken ++ rsp.toList := by
  have hedges := edgesFor_of_commandLevel h
  obtain ⟨w, hw⟩ := encode_of_commandLevel h
  have hrst : (offerOf i).rst = false := by rw [offerOf_eq hw]; rfl
  have hready : (offerOf i).rspReady = false := by rw [offerOf_eq hw]; rfl
  have hin : inputs s = { offerOf i with rspReady := false } := by
    rw [inputs, hports, hedges, List.headD_cons, ← hready]
  obtain ⟨-, u, hsu, key, kv, taken, outstanding, steps⟩ := transition_of_commandLevel hp hin h
  cases rsp with
  | none =>
    obtain ⟨-, -, huu⟩ := hsu.keeps
    refine ⟨tick u, ?_, outstanding, huu.trans hu, key, kv, by simpa using taken⟩
    rw [hedges]
    exact stepsWith_succ 0 hu (by rw [hin, hrst]) hsu
  | some b =>
    obtain ⟨t, ht, tp, tk, tv, tu, -, tt⟩ := stepsWith_block c (rest := []) hu (by rw [hports, hedges]; rfl)
      (blockLevels_blockTail hrst) hsu outstanding (steps rfl)
    refine ⟨t, ?_, tp, tu, tk.trans key, tv.trans kv, by rw [tt, taken]; rfl⟩
    rw [hedges]
    exact ht

/-- The host drives a line, and the engine ends where the command level says (R160). -/
theorem driveLine_of_commandLevel {c : Cfg} {l : CoreLine} {s : State} {i : Instr} {st : CmdState} {rsp : Option Block}
    (hp : s.ph = .idle) (hu : s.unitSel = none) (hl : lineCommand s.taken l = some i)
    (h : commandLevel c i ⟨s.keyreg, s.kv⟩ = some (st, rsp)) :
    ∃ t, driveLine c l s = some t ∧ t.ph = .idle ∧ t.unitSel = none ∧ t.keyreg = st.keyreg ∧ t.kv = st.kv ∧
      t.taken = s.taken ++ rsp.toList := by
  obtain ⟨t, ht, after⟩ := stepsWith_line (s := { s with ports := edgesFor i }) hp hu rfl h
  exact ⟨t, by simp [driveLine, hl, ht, nextOf], after⟩

/-- Settles O49, line by line. -/
theorem drivenLinesGiveCommandLevelResponses : Obligations.DrivenLinesGiveCommandLevelResponses := by
  unfold Obligations.DrivenLinesGiveCommandLevelResponses
  intro c ls
  induction ls with
  | nil =>
    intro s out responses hp hu h
    cases h
    exact ⟨s, rfl, hp, rfl, rfl, rfl⟩
  | cons l ls ih =>
    intro s out responses hp hu h
    obtain ⟨i, st, rsp, hl, hc, hrest⟩ := runCommands_cons h
    obtain ⟨t, ht, tp, tu, tk, tv, tt⟩ := driveLine_of_commandLevel hp hu hl hc
    obtain ⟨v, hv, after⟩ := ih t out responses tp tu (by rw [tk, tv, tt]; exact hrest)
    exact ⟨v, by rw [driveProgram, ht]; exact hv, after⟩

end Sys2Proof.Machine
end

section
/-! Runs of a program under the host's choices (R160, R162): an invariant that ties the engine, the lines left and the
awaited response to the command level, and a count of moves that an eager host makes smaller at every step. -/

namespace Sys2Proof.Machine

/-- Settles O58, by the definitions of the end of a run and of its result. -/
theorem runEndsExactlyWhenAllIsDone : Obligations.RunEndsExactlyWhenAllIsDone := by
  unfold Obligations.RunEndsExactlyWhenAllIsDone
  refine fun r => ⟨?_, (runResult_eq_none r).mpr, fun ended => if_pos ended⟩
  simp [runEnded, and_assoc]

/-! Presenting the host's levels writes no register. -/

@[simp] theorem presented_keyreg (m : HostMove) (r : Run) : (presented m r).keyreg = r.engine.keyreg := rfl
@[simp] theorem presented_kv (m : HostMove) (r : Run) : (presented m r).kv = r.engine.kv := rfl
@[simp] theorem presented_taken (m : HostMove) (r : Run) : (presented m r).taken = r.engine.taken := rfl

/-- The response the host waits for is outstanding, and from there the command level goes on to `goal` with the lines
left. -/
def OnCourse (c : Cfg) (goal : CmdState × List Block) (r : Run) : Prop :=
  r.engine.unitSel = none ∧ ∃ rsp : Option Block, r.awaiting = rsp.isSome ∧ Outstanding c rsp r.engine ∧
    runCommands c r.lines ⟨r.engine.keyreg, r.engine.kv⟩ (r.engine.taken ++ rsp.toList) = some goal

/-- An upper bound on the moves to the end of a run for a host that offers and takes as soon as it may: nineteen for
each line left, and those of the command in progress. -/
def movesLeft (r : Run) : Nat :=
  19 * r.lines.length + if r.awaiting then stepsToResponse r.engine + 1 else 0

/-- The host that offers its next line and takes a response as soon as it may. -/
def eager : HostMove := ⟨true, true⟩

/-- The step of a run on course: it is on course again, and for an eager host nearer to its end. -/
def Advances (c : Cfg) (goal : CmdState × List Block) (m : HostMove) (r : Run) : Prop :=
  ∃ t, runStep c m r = some t ∧ OnCourse c goal t ∧ (m = eager → runEnded r = false → movesLeft t < movesLeft r)

/-- A step of a run with nothing accepted. -/
theorem runStep_no_accept {c : Cfg} {m : HostMove} {r : Run} {u : State} (hu : r.engine.unitSel = none)
    (ha : acceptEvent (presented m r) = false) (h : Transition c (presented m r) u) :
    runStep c m r = some ⟨tick u, r.lines, r.awaiting && !respondsNow (presented m r)⟩ := by
  rw [runStep_next c m r (tick u) (by simp [acceptsWithoutKey, ha])
    (stepWith_of_transition hu (hostLevels_rst m r) h)]
  simp [linesAfter, awaitingAfter, ha]

/-- An eager host is there for the response in RESP (R150). -/
theorem respondsNow_eager {r : Run} (hp : r.engine.ph = .resp) : respondsNow (presented eager r) = true := by
  have valid : rspValid (presented eager r) = true := (rspValid_iff _).mpr hp
  have event : respondEvent (presented eager r) = true :=
    (respondEvent_iff _).mpr ⟨hostLevels_rspReady eager r, hostLevels_rst eager r⟩
  simp [respondsNow, valid, event]

/-- While the host waits for a response, the command goes on or its response is taken. -/
theorem advances_of_awaiting {c : Cfg} {goal : CmdState × List Block} {m : HostMove} {r : Run} {b : Block}
    (hu : r.engine.unitSel = none) (hw : r.awaiting = true) (hs : Responding c b r.engine)
    (hrun : runCommands c r.lines ⟨r.engine.keyreg, r.engine.kv⟩ (r.engine.taken ++ [b]) = some goal) :
    Advances c goal m r := by
  have busy : (presented m r).ph ≠ .idle := hs.busy
  obtain ⟨u, hsu⟩ := exists_transition c (s := presented m r) hu
  obtain ⟨-, -, huu⟩ := hsu.keeps
  obtain ⟨hkey, hkv⟩ := hsu.key_of_busy busy
  refine ⟨_, runStep_no_accept hu (acceptEvent_of_busy busy) hsu, ?_⟩
  rcases hsu.responding (b := b) hs with ⟨hnext, htaken, notNow⟩ | ⟨now, rfl⟩
  · refine ⟨⟨huu.trans hu, some b, by simp [hw, notNow], hnext, ?_⟩, ?_⟩
    · simpa [hkey, hkv, htaken] using hrun
    · rintro rfl -
      have before : r.engine.ph = .round ∨ r.engine.ph = .final := by
        cases hp : r.engine.ph with
        | idle => exact absurd hp busy
        | round => exact .inl rfl
        | final => exact .inr rfl
        | resp => exact absurd (respondsNow_eager hp) notNow
      have hsteps : stepsToResponse r.engine = stepsToResponse (tick u) + 1 := hsu.stepsToResponse_eq before
      simp [movesLeft, hw, notNow, hsteps]
  · refine ⟨⟨hu, none, by simp [now], rfl, ?_⟩, fun _ _ => ?_⟩
    · simpa using hrun
    · simp [movesLeft, hw, now]

/-- Where the host offers nothing to an idle engine, it waits. -/
theorem advances_of_quiet {c : Cfg} {goal : CmdState × List Block} {m : HostMove} {r : Run}
    (hu : r.engine.unitSel = none) (hw : r.awaiting = false) (hp : r.engine.ph = .idle)
    (hrun : runCommands c r.lines ⟨r.engine.keyreg, r.engine.kv⟩ r.engine.taken = some goal)
    (quiet : m.offers = false ∨ r.lines = []) : Advances c goal m r := by
  have hnone : m.offers = false ∨ nextCommand r = none := quiet.imp_right fun h => by simp [nextCommand, hw, h]
  have ha : acceptEvent (presented m r) = false := by
    rw [acceptEvent, inputs_presented, hostLevels_quiet m r hnone]
    rfl
  have waits : Transition c (presented m r) (presented m r) := .wait hp (by simp [ha])
  refine ⟨_, runStep_no_accept hu ha waits, ⟨hu, none, by simp [hw], hp, by simpa using hrun⟩, ?_⟩
  rintro rfl notEnded
  rcases quiet with h | h
  · cases h
  · simp [runEnded, h, hw, hp] at notEnded

/-- A command of the command level is not one that the spec's model refuses (R22, R178). -/
theorem acceptsWithoutKey_of_commandLevel {c : Cfg} {s : State} {i : Instr} {st : CmdState} {rsp : Option Block}
    {ready : Bool} (hin : inputs s = { offerOf i with rspReady := ready })
    (h : commandLevel c i ⟨s.keyreg, s.kv⟩ = some (st, rsp)) : acceptsWithoutKey s = false := by
  cases i with
  | nop d => simp [acceptsWithoutKey, hin, offer]
  | setkey d => simp [acceptsWithoutKey, hin, offer]
  | encrypt d | decrypt d =>
    obtain ⟨hk, -⟩ := Option.ite_none_right_eq_some.mp h
    simp [acceptsWithoutKey, show s.kv = true from hk]
  | stepWait | stepRoundEnc | stepRoundDec | stepFinal | stepRespond => cases h
  | applyIp | applyFp | applyPc1 | applyPc2 | applyE | applyS | applyP | rsh => cases h

/-- The lines with a response are those whose command has one (R161). -/
theorem responds_of_commandLevel {c : Cfg} {l : CoreLine} {taken : List Block} {i : Instr} {st st' : CmdState}
    {rsp : Option Block} (hl : lineCommand taken l = some i) (h : commandLevel c i st = some (st', rsp)) :
    l.responds = rsp.isSome := by
  cases l with
  | nop => cases hl; cases h; rfl
  | setkey v => obtain ⟨d, -, rfl⟩ := Option.map_eq_some_iff.mp hl; cases h; rfl
  | encrypt v | decrypt v =>
    obtain ⟨d, -, rfl⟩ := Option.map_eq_some_iff.mp hl
    obtain ⟨-, heq⟩ := Option.ite_none_right_eq_some.mp h
    cases heq
    rfl

/-- Where the host offers its next line to an idle engine, the line's command is accepted. -/
theorem advances_of_offer {c : Cfg} {goal : CmdState × List Block} {m : HostMove} {r : Run} {l : CoreLine}
    {ls : List CoreLine} (hu : r.engine.unitSel = none) (hw : r.awaiting = false) (hp : r.engine.ph = .idle)
    (hlines : r.lines = l :: ls)
    (hrun : runCommands c (l :: ls) ⟨r.engine.keyreg, r.engine.kv⟩ r.engine.taken = some goal)
    (offers : m.offers = true) : Advances c goal m r := by
  obtain ⟨i, st, rsp, hl, hc, hrest⟩ := runCommands_cons hrun
  have hnext : nextCommand r = some i := by simp [nextCommand, hw, hlines, hl]
  have hin : inputs (presented m r) = { offerOf i with rspReady := m.takes } := hostLevels_offer m r i offers hnext
  obtain ⟨ha, u, hsu, key, kv, taken, outstanding, steps⟩ :=
    transition_of_commandLevel (s := presented m r) hp hin hc
  obtain ⟨-, -, huu⟩ := hsu.keeps
  have hstep : runStep c m r = some ⟨tick u, ls, rsp.isSome⟩ := by
    rw [runStep_next c m r (tick u) (acceptsWithoutKey_of_commandLevel hin hc)
      (stepWith_of_transition hu (hostLevels_rst m r) hsu)]
    simp [linesAfter, awaitingAfter, ha, hlines, responds_of_commandLevel hl hc]
  refine ⟨_, hstep, ⟨huu.trans hu, rsp, rfl, outstanding, ?_⟩, fun _ _ => ?_⟩
  · rw [tick_keyreg, tick_kv, tick_taken, key, kv, taken]
    exact hrest
  · cases rsp with
    | none => simp [movesLeft, hw, hlines]
    | some b =>
      have hsteps : stepsToResponse (tick u) = 17 := steps rfl
      simp [movesLeft, hw, hlines, hsteps]
      omega

/-- A run on course has a next step whatever the host chooses (R160, R162). -/
theorem advances_of_onCourse {c : Cfg} {goal : CmdState × List Block} {r : Run} (h : OnCourse c goal r) (m : HostMove) :
    Advances c goal m r := by
  obtain ⟨hu, rsp, hw, outstanding, hrun⟩ := h
  cases rsp with
  | some b => exact advances_of_awaiting hu hw outstanding hrun
  | none =>
    rw [Option.toList_none, List.append_nil] at hrun
    by_cases quiet : m.offers = false ∨ r.lines = []
    · exact advances_of_quiet hu hw outstanding hrun quiet
    · obtain ⟨offers, left⟩ := not_or.mp quiet
      obtain ⟨l, ls, hlines⟩ := List.exists_cons_of_ne_nil left
      exact advances_of_offer hu hw outstanding hlines (hlines ▸ hrun) (by simpa using offers)

/-- A run on course stays on course under every choice of the host (R162). -/
theorem runMoves_onCourse {c : Cfg} {goal : CmdState × List Block} (ms : List HostMove) {r : Run}
    (h : OnCourse c goal r) : ∃ t, runMoves c ms r = some t ∧ OnCourse c goal t := by
  induction ms generalizing r with
  | nil => exact ⟨r, rfl, h⟩
  | cons m ms ih =>
    obtain ⟨u, hu, hon, -⟩ := advances_of_onCourse h m
    obtain ⟨t, ht, hton⟩ := ih hon
    exact ⟨t, by rw [runMoves, hu]; exact ht, hton⟩

/-- An eager host brings a run on course to its end (R160). -/
theorem exists_moves_to_end {c : Cfg} {goal : CmdState × List Block} {r : Run} (h : OnCourse c goal r) :
    ∃ ms e, runMoves c ms r = some e ∧ runEnded e = true := by
  induction hn : movesLeft r using Nat.strong_induction_on generalizing r with
  | _ n ih =>
    cases ended : runEnded r with
    | true => exact ⟨[], r, rfl, ended⟩
    | false =>
      obtain ⟨t, ht, hon, fewer⟩ := advances_of_onCourse h eager
      obtain ⟨ms, e, he, hend⟩ := ih _ (hn ▸ fewer rfl ended) hon rfl
      exact ⟨eager :: ms, e, by rw [runMoves, ht]; exact he, hend⟩

/-- The result of a run on course that has ended is the command level's (R160). -/
theorem runResult_of_onCourse {c : Cfg} {goal : CmdState × List Block} {r : Run} (h : OnCourse c goal r)
    (ended : runEnded r = true) : runResult r = some (goal.2, goal.1.keyreg, goal.1.kv) := by
  obtain ⟨each, -, result⟩ := runEndsExactlyWhenAllIsDone r
  obtain ⟨noLine, noWait, -⟩ := each.mp ended
  obtain ⟨-, rsp, hw, -, hrun⟩ := h
  have noRsp : rsp = none := Option.not_isSome_iff_eq_none.mp (by rw [← hw, noWait]; simp)
  rw [noLine, noRsp, Option.toList_none, List.append_nil] at hrun
  cases hrun
  exact result ended

/-- Settles O57: a run starts on course, and on course it has a next step, can be ended, and ends with the command
level's result. -/
theorem runsOfProgramsEndWithTheirResult : Obligations.RunsOfProgramsEndWithTheirResult := by
  unfold Obligations.RunsOfProgramsEndWithTheirResult
  intro c ls s out responses hp hu hrun ms
  have start : OnCourse c (out, responses) (runStart s ls) := ⟨hu, none, rfl, hp, by simpa [runStart] using hrun⟩
  obtain ⟨r, hr, hon⟩ := runMoves_onCourse ms start
  exact ⟨r, hr, runResult_of_onCourse hon, exists_moves_to_end hon⟩

end Sys2Proof.Machine
end

section
/-! The construction-time check (R171 to R173): when each of the five parts passes, which violation each reports, and so
what the whole check reports. -/

namespace Sys2Proof.Machine

theorem mem_allBanks (b : Bank) : b ∈ allBanks := by cases b <;> decide

theorem mem_selectionBanks_iff (b : Bank) : b ∈ selectionBanks ↔ b ≠ .roundShift := by cases b <;> decide

/-- Bank 7 has the highest number (R51). -/
theorem ne_roundShift_of_lower {a b : Bank} (h : bankNumber a < bankNumber b) : a ≠ .roundShift := by
  rintro rfl
  cases b <;> revert h <;> decide

theorem allBanks_ascending : allBanks.Pairwise (bankNumber · < bankNumber ·) := by decide

theorem selectionBanks_ascending : selectionBanks.Pairwise (bankNumber · < bankNumber ·) := by decide

/-- In a list of banks by ascending number, the banks lower than one of them stand before it. -/
theorem mem_before_of_lower {before after : List Bank} {a b : Bank}
    (ascending : (before ++ b :: after).Pairwise (bankNumber · < bankNumber ·)) (ha : a ∈ before ++ b :: after)
    (lower : bankNumber a < bankNumber b) : a ∈ before := by
  obtain ⟨-, fromB, -⟩ := List.pairwise_append.mp ascending
  rcases List.mem_append.mp ha with hbefore | hfromB
  · exact hbefore
  · rcases List.mem_cons.mp hfromB with rfl | hafter
    · exact absurd lower (BitVec.lt_irrefl _)
    · exact absurd lower (BitVec.lt_asymm (List.rel_of_pairwise_cons fromB hafter))

theorem entryInRange_iff (b : Bank) (e : Nat) : entryInRange b e = true ↔ 1 ≤ e ∧ e ≤ bankSource b := by
  simp [entryInRange]

theorem fpInvertsAt_iff (t : RomImage) (j : Nat) :
    fpInvertsAt t j = true ↔ t.ip.getD (t.fp.getD j 0 - 1) 0 = j + 1 := by
  simp [fpInvertsAt]

/-! When each part passes. -/

theorem checkLength_eq_none_iff (t : RomImage) :
    checkLength t = none ↔ ∀ b ∈ allBanks, (bankTable t b).length = bankLength b := by
  simp [checkLength]

theorem checkStorage_eq_none_iff (t : RomImage) :
    checkStorage t = none ↔ ∀ b ∈ allBanks, (bankTable t b).length ≤ bankStorage b := by
  simp [checkStorage]

theorem checkEntries_eq_none_iff (t : RomImage) :
    checkEntries t = none ↔ ∀ b ∈ selectionBanks, ∀ e ∈ bankTable t b, entryInRange b e = true := by
  simp [checkEntries]

theorem checkInverse_eq_none_iff (t : RomImage) :
    checkInverse t = none ↔ ∀ j ∈ List.range 64, fpInvertsAt t j = true := by
  simp [checkInverse]

theorem checkAmounts_eq_none_iff (t : RomImage) : checkAmounts t = none ↔ t.rs = roundShift := by
  simp [checkAmounts]

/-- Settles O38: each of the five parts passes exactly where its condition of R91 holds. -/
theorem checkPassesTheWellFormed : Obligations.CheckPassesTheWellFormed := by
  unfold Obligations.CheckPassesTheWellFormed
  intro t
  simp only [romCheck, Option.orElse_eq_none, checkLength_eq_none_iff,
    checkStorage_eq_none_iff, checkEntries_eq_none_iff, checkInverse_eq_none_iff, checkAmounts_eq_none_iff]

/-- V2 cannot be the first violation: a bank of the right length fits its storage (R171). -/
theorem checkStorage_eq_none_of_length {t : RomImage}
    (lengths : ∀ b ∈ allBanks, (bankTable t b).length = bankLength b) : checkStorage t = none := by
  refine (checkStorage_eq_none_iff t).mpr fun b hb => ?_
  rw [lengths b hb]
  cases b <;> decide

/-- The reports of the check, each with what makes it the first violation in the order of R173. -/
inductive FirstViolation (t : RomImage) : Report → Prop where
  | length (b : Bank) (wrong : (bankTable t b).length ≠ bankLength b)
      (lower : ∀ a, bankNumber a < bankNumber b → (bankTable t a).length = bankLength a) :
      FirstViolation t ⟨.tableLength, b, none⟩
  | entry (b : Bank) (i e : Nat) (lengths : checkLength t = none) (found : (bankTable t b)[i]? = some e)
      (wrong : ¬ (1 ≤ e ∧ e ≤ bankSource b))
      (before : ∀ j, j < i → ∀ d, (bankTable t b)[j]? = some d → 1 ≤ d ∧ d ≤ bankSource b)
      (lower : ∀ a, bankNumber a < bankNumber b → ∀ d ∈ bankTable t a, 1 ≤ d ∧ d ≤ bankSource a) :
      FirstViolation t ⟨.entryRange, b, some i⟩
  | inverse (j : Nat) (lengths : checkLength t = none) (entries : checkEntries t = none) (inside : j < 64)
      (wrong : t.ip.getD (t.fp.getD j 0 - 1) 0 ≠ j + 1)
      (before : ∀ i, i < j → t.ip.getD (t.fp.getD i 0 - 1) 0 = i + 1) :
      FirstViolation t ⟨.fpNotInverse, .fp, some j⟩
  | amounts (lengths : checkLength t = none) (entries : checkEntries t = none) (inverse : checkInverse t = none)
      (wrong : t.rs ≠ roundShift) : FirstViolation t ⟨.roundShiftValues, .roundShift, none⟩

/-- V1 names the lowest bank of a wrong length (R171, R173). -/
theorem firstViolation_of_checkLength {t : RomImage} {rep : Report} (h : checkLength t = some rep) :
    FirstViolation t rep := by
  obtain ⟨b, hb, rfl⟩ := Option.map_eq_some_iff.mp h
  obtain ⟨wrong, before, after, hlist, right⟩ := List.find?_eq_some_iff_append.mp hb
  refine .length b (by simpa using wrong) fun a lower => ?_
  have ha : a ∈ before := mem_before_of_lower (hlist ▸ allBanks_ascending) (hlist ▸ mem_allBanks a) lower
  simpa using right a ha

/-- V3 names the first entry out of range of the lowest bank that has one (R171, R173). -/
theorem firstViolation_of_checkEntries {t : RomImage} {rep : Report} (lengths : checkLength t = none)
    (h : checkEntries t = some rep) : FirstViolation t rep := by
  obtain ⟨before, b, after, hlist, hb, right⟩ := List.findSome?_eq_some_iff.mp h
  obtain ⟨i, hi, rfl⟩ := Option.map_eq_some_iff.mp hb
  obtain ⟨inside, wrong, lowerIndex⟩ := List.findIdx?_eq_some_iff_getElem.mp hi
  refine .entry b i (bankTable t b)[i] lengths (List.getElem?_eq_getElem inside) ?_ (fun j hj d hd => ?_)
    fun a lower d hd => ?_
  · simpa [← entryInRange_iff] using wrong
  · obtain ⟨-, rfl⟩ := List.getElem?_eq_some_iff.mp hd
    simpa [← entryInRange_iff] using lowerIndex j hj
  · have hmem : a ∈ selectionBanks := (mem_selectionBanks_iff a).mpr (ne_roundShift_of_lower lower)
    have ha : a ∈ before := mem_before_of_lower (hlist ▸ selectionBanks_ascending) (hlist ▸ hmem) lower
    have all := List.findIdx?_eq_none_iff.mp (Option.map_eq_none_iff.mp (right a ha))
    simpa [← entryInRange_iff] using all d hd

/-- V4 names the lowest place at which FP does not invert IP (R171, R173). -/
theorem firstViolation_of_checkInverse {t : RomImage} {rep : Report} (lengths : checkLength t = none)
    (entries : checkEntries t = none) (h : checkInverse t = some rep) : FirstViolation t rep := by
  obtain ⟨j, hj, rfl⟩ := Option.map_eq_some_iff.mp h
  obtain ⟨wrong, inside, right⟩ := List.find?_range_eq_some.mp hj
  refine .inverse j lengths entries (List.mem_range.mp inside) ?_ fun i hi => ?_
  · rw [ne_eq, ← fpInvertsAt_iff]
    simpa using wrong
  · rw [← fpInvertsAt_iff]
    simpa using right i hi

/-- V5 means that the amounts are not the fixed ones (R171). -/
theorem firstViolation_of_checkAmounts {t : RomImage} {rep : Report} (lengths : checkLength t = none)
    (entries : checkEntries t = none) (inverse : checkInverse t = none) (h : checkAmounts t = some rep) :
    FirstViolation t rep := by
  obtain ⟨wrong, rfl⟩ : t.rs ≠ roundShift ∧ Report.mk .roundShiftValues .roundShift none = rep := by
    simpa [checkAmounts] using h
  exact .amounts lengths entries inverse wrong

/-- What the check reports is the first violation (R173). -/
theorem firstViolation_of_romCheck {t : RomImage} {rep : Report} (h : romCheck t = some rep) :
    FirstViolation t rep := by
  simp only [romCheck, Option.orElse_eq_some] at h
  rcases h with h1 | ⟨lengths, h2 | ⟨-, h3 | ⟨entries, h4 | ⟨inverse, h5⟩⟩⟩⟩
  · exact firstViolation_of_checkLength h1
  · simp [checkStorage_eq_none_of_length ((checkLength_eq_none_iff t).mp lengths)] at h2
  · exact firstViolation_of_checkEntries lengths h3
  · exact firstViolation_of_checkInverse lengths entries h4
  · exact firstViolation_of_checkAmounts lengths entries inverse h5

/-- Past V1 every bank has its length. -/
theorem bank_length_of_check {t : RomImage} (h : checkLength t = none) (b : Bank) :
    (bankTable t b).length = bankLength b :=
  (checkLength_eq_none_iff t).mp h b (mem_allBanks b)

/-- Past V3 every entry of a selection bank is in range. -/
theorem entry_range_of_check {t : RomImage} (h : checkEntries t = none) {b : Bank} (hb : b ≠ .roundShift) {e : Nat}
    (he : e ∈ bankTable t b) : 1 ≤ e ∧ e ≤ bankSource b :=
  (entryInRange_iff b e).mp ((checkEntries_eq_none_iff t).mp h b ((mem_selectionBanks_iff b).mpr hb) e he)

/-- Past V4 FP inverts IP. -/
theorem fp_inverts_of_check {t : RomImage} (h : checkInverse t = none) {j : Nat} (hj : j < 64) :
    t.ip.getD (t.fp.getD j 0 - 1) 0 = j + 1 :=
  (fpInvertsAt_iff t j).mp ((checkInverse_eq_none_iff t).mp h j (List.mem_range.mpr hj))

/-- Settles O39, by the violation reported: the clauses about other codes do not apply. -/
theorem checkReportsTheFirstViolation : Obligations.CheckReportsTheFirstViolation := by
  unfold Obligations.CheckReportsTheFirstViolation
  intro t rep h
  cases firstViolation_of_romCheck h with
  | length b wrong lower =>
    exact ⟨nofun, fun _ => ⟨wrong, rfl, lower⟩, fun other => absurd rfl other, nofun, by simp, nofun, nofun⟩
  | entry b i e lengths found wrong before lower =>
    exact ⟨nofun, nofun, fun _ => bank_length_of_check lengths,
      fun _ => ⟨i, rfl, ⟨e, found, wrong⟩, before, lower⟩, by simp, nofun, nofun⟩
  | inverse j lengths entries inside wrong before =>
    exact ⟨nofun, nofun, fun _ => bank_length_of_check lengths, nofun, fun _ _ hb _ => entry_range_of_check entries hb,
      fun _ => ⟨j, rfl, rfl, inside, wrong, before⟩, nofun⟩
  | amounts lengths entries inverse wrong =>
    exact ⟨nofun, nofun, fun _ => bank_length_of_check lengths, nofun, fun _ _ hb _ => entry_range_of_check entries hb,
      nofun, fun _ => ⟨rfl, rfl, wrong, fun _ => fp_inverts_of_check inverse⟩⟩

end Sys2Proof.Machine
end

section
/-! What a host can do wrong (R170, R178): the engine's step goes on whatever the host does, and where the spec's model
does not. -/

namespace Sys2Proof.Machine

open Safety

/-- Settles O13: every edge, of whichever kind, has a next state. -/
theorem everyStepCompletes : Obligations.EveryStepCompletes := by
  unfold Obligations.EveryStepCompletes
  exact step_has_next

/-! The model's column. -/

/-- The word the host owes after an edge: the one it offers at an edge that does not accept it (R140, R194). -/
theorem owedAfter_eq (s : State) : owedAfter s =
    if (inputs s).cmdValid = true ∧ ¬ (s.ph = .idle ∧ (inputs s).rst = false) then
      some ((inputs s).cmdOp ++ (inputs s).cmdData) else none := by
  simp only [owedAfter, commandWord, Bool.and_eq_true, Bool.not_eq_true', ← cmdReady_iff, Bool.not_eq_true]

/-- An engine that accepts a command has no response waiting. -/
theorem neverTaken_of_acceptsWithoutKey {s : State} (h : acceptsWithoutKey s = true) : neverTaken s = false := by
  obtain ⟨-, -, idle, -⟩ := (acceptsWithoutKey_iff s).mp h
  simp [neverTaken, rspValid, idle]

/-- An idle engine with `KV = 0` to which the host of a run offers a block command would accept it (R22). -/
theorem acceptsWithoutKey_presented {m : HostMove} {r : Run} {block : Block} (hp : r.engine.ph = .idle)
    (hk : r.engine.kv = false) (offers : m.offers = true)
    (hnext : nextCommand r = some (.encrypt block) ∨ nextCommand r = some (.decrypt block)) :
    acceptsWithoutKey (presented m r) = true := by
  rw [acceptsWithoutKey_iff, inputs_presented]
  rcases hnext with hnext | hnext
  · rw [hostLevels_offer m r _ offers hnext, offerOf_encrypt]
    exact ⟨rfl, rfl, hp, hk, .inl rfl⟩
  · rw [hostLevels_offer m r _ offers hnext, offerOf_decrypt]
    exact ⟨rfl, rfl, hp, hk, .inr rfl⟩

/-- A run waits in RESP for a response that its host has not taken. -/
structure WaitsForResponse (r : Run) : Prop where
  inResp : r.engine.ph = .resp
  noUnit : r.engine.unitSel = none
  awaits : r.awaiting = true

/-- A run that waits for its response waits on after a step at which the host does not take it (R152; log 11). -/
theorem WaitsForResponse.exists_runStep (c : Cfg) {m : HostMove} {r : Run} (h : WaitsForResponse r)
    (untaken : m.takes = false) : ∃ t, runStep c m r = some t ∧ WaitsForResponse t := by
  obtain ⟨hp, hu, hw⟩ := h
  have busy : (presented m r).ph ≠ .idle := by simp [presented, hp]
  have noEvent : respondEvent (presented m r) = false := by simp [respondEvent, untaken]
  have held : Transition c (presented m r) (presented m r) := .hold hp noEvent
  exact ⟨_, runStep_no_accept hu (acceptEvent_of_busy busy) held, hp, hu, by simp [hw, respondsNow, noEvent]⟩

/-- So it waits after any number of such steps. -/
theorem WaitsForResponse.exists_runMoves (c : Cfg) (ms : List HostMove) {r : Run} (h : WaitsForResponse r)
    (untaken : ∀ m ∈ ms, m.takes = false) : ∃ e, runMoves c ms r = some e ∧ WaitsForResponse e := by
  induction ms generalizing r with
  | nil => exact ⟨r, rfl, h⟩
  | cons m ms ih =>
    obtain ⟨first, rest⟩ := List.forall_mem_cons.mp untaken
    obtain ⟨t, ht, hwait⟩ := h.exists_runStep c first
    obtain ⟨e, he, hend⟩ := ih hwait rest
    exact ⟨e, by rw [runMoves, ht]; exact he, hend⟩

/-- A run that waits for its response has not ended (R160). -/
theorem WaitsForResponse.not_ended {r : Run} (h : WaitsForResponse r) : runEnded r = false := by
  simp [runEnded, h.awaits]

/-- Settles O59: the joint step case by case, the step of a run that is refused, and the waits of a run in RESP. -/
theorem hostViolationsInTheModel : Obligations.HostViolationsInTheModel := by
  unfold Obligations.HostViolationsInTheModel
  refine ⟨fun c g hu => ?joint, fun c m r block hp hk offers hnext => ?refused,
    fun c ms r hp hu hw untaken => ?waiting⟩
  case joint =>
    dsimp only
    rw [← owedAfter_eq, ← keepsWord_iff, ← acceptsWithoutKey_iff, ← neverTaken_iff]
    rcases modelStep_cases c g hu with ⟨hkeep, h⟩ | ⟨hkeep, hkey, h⟩ | ⟨hkeep, hkey, hnever, h⟩ |
      ⟨hkeep, hkey, hnever, t, ht, h⟩
    · simp [hkeep, h]
    · simp [hkeep, hkey, neverTaken_of_acceptsWithoutKey hkey, h]
    · simp [hkeep, hkey, hnever, h]
    · simp [hkeep, hkey, hnever, ht, h]
  case refused => exact runStep_refused c m r (acceptsWithoutKey_presented hp hk offers hnext)
  case waiting =>
    obtain ⟨e, he, hend⟩ := WaitsForResponse.exists_runMoves c ms ⟨hp, hu, hw⟩ untaken
    exact ⟨e, he, hend.inResp, hend.not_ended, (runResult_eq_none e).mpr hend.not_ended⟩

end Sys2Proof.Machine
end

section
/-! The hardware's column (R178): a block command without a key, the word at the accept edge, and the wait in RESP. -/

namespace Sys2Proof.Machine

open Safety

/-- While `KV = 0` an accept step reads the free key (log 3). -/
theorem keyRead_of_not_kv {s : State} (h : s.kv = false) : keyRead s = Config.unsetKey s.draw s.keyreg := by
  simp [keyRead, h]

/-- A block command offered to an idle engine: `Enc` or `Dec` of the block under the key that its accept step reads, over
the steps of R153 (log 7). -/
theorem stepsWith_offeredBlock (c : Cfg) {s : State} (dir : Bool) {first last : PortsIn} {mid waits rest : List PortsIn}
    (hp : s.ph = .idle) (hu : s.unitSel = none) (hports : s.ports = first :: (mid ++ (waits ++ last :: rest)))
    (levels : BlockLevels first mid waits last) (valid : first.cmdValid = true)
    (hop : first.cmdOp = if dir then 0b11#2 else 0b10#2) :
    ∃ t, stepsWith c (19 + waits.length) s = .next t ∧ t.ph = .idle ∧ t.keyreg = s.keyreg ∧ t.kv = s.kv ∧
      t.taken = s.taken ++ [blockResponse c dir (keyRead s) first.cmdData] := by
  have hinputs : inputs s = first := by simp [inputs, hports]
  have ha : acceptEvent s = true := (acceptEvent_iff s).mpr (hinputs ▸ ⟨levels.first_rst, valid, hp⟩)
  have accepted := Transition.acceptBlock c dir ha (by rw [hinputs, hop])
  rw [hinputs] at accepted
  obtain ⟨t, ht, tp, tk, tv, -, -, tt⟩ := stepsWith_block c hu hports levels accepted
    (responding_startBlock c dir (keyRead s) first.cmdData s) (stepsToResponse_startBlock dir _ s)
  exact ⟨t, ht, tp, tk, tv, tt⟩

/-- An accepted command word runs the command it decodes to, and the step ends with a tick (R140). -/
theorem stepsWith_accept {s : State} (hu : s.unitSel = none) (ha : acceptEvent s = true) :
    ∃ t, exec (decode (.cmd (commandWord s))) s = .next t ∧ t.ports = s.ports ∧ t.draw = s.draw ∧
      stepsWith installed 1 s = .next (tick t) := by
  obtain ⟨-, accepts⟩ := offeredCommandIsAccepted
  obtain ⟨t, ht, hstep⟩ := accepts s hu ha
  obtain ⟨hports, hdraw, -⟩ := execWith_keeps installed _ s t (exec_eq_execWith _ s ▸ ht)
  exact ⟨t, ht, hports, hdraw, by simp [stepsWith, ← step_eq_stepWith, hstep]⟩

/-- Settles O60: the accept step reads the free key; the step after the respond event accepts the word that stands there;
and in RESP every step holds. -/
theorem hostViolationsOnTheHardware : Obligations.HostViolationsOnTheHardware := by
  unfold Obligations.HostViolationsOnTheHardware
  refine ⟨?keyless, ?changed, fun s n hp hu untaken => ?untaken⟩
  case keyless =>
    intro s dec block first last mid waits rest hp hk hu hports valid hop hdata hfirst hmid hwaits hlast hlen huntaken
      hready
    have levels : BlockLevels first mid waits last :=
      ⟨hfirst, hlen, hmid, fun p hp => ⟨huntaken p hp, hwaits p hp⟩, hready, hlast⟩
    obtain ⟨t, ht, tp, tk, tv, tt⟩ := stepsWith_offeredBlock installed dec hp hu hports levels valid hop
    rw [keyRead_of_not_kv hk, hdata] at tt
    exact ⟨t, (run_eq_stepsWith _ s).trans ht, tp, tk, tv.trans hk, tt⟩
  case changed =>
    intro s p q rest hp hu hports _ ready hrst valid hrst' u
    have hinputs : inputs s = p := by simp [inputs, hports]
    have taken : stepsWith installed 1 s = .next u := by
      rw [stepsWith_respond installed hp hu (hinputs ▸ ready) (hinputs ▸ hrst), tick]
      simp [u, hports]
    have accepted : acceptEvent u = true := (acceptEvent_iff u).mpr ⟨hrst', valid, rfl⟩
    obtain ⟨t, ht, tp, td, hstep⟩ := stepsWith_accept (s := u) hu accepted
    refine ⟨t, ht, ?_⟩
    rw [run_eq_stepsWith, stepsWith_add 1 taken, hstep, tick, tp, td]
    rfl
  case untaken => exact (run_eq_stepsWith n s).trans (stepsWith_hold installed hp hu untaken)

end Sys2Proof.Machine
end

section
/-! Reset, and the bound on a command in progress (R190, R191, R198): what an edge with reset leaves, and that without
reset the engine counts down to RESP, whatever the working registers hold. -/

namespace Sys2Proof.Machine

open Safety

/-- A reset edge, whatever the phase (R190). -/
theorem step_of_reset {s : State} (hu : s.unitSel = none) (hr : (inputs s).rst = true) :
    step s = .next (tick (resetEdge s)) :=
  (step_next_iff s _).mpr (.inr (.inl ⟨hu, hr, rfl⟩))

/-- Settles O14: with reset the engine is not ready, and its step is the reset edge. -/
theorem resetAbandonsTheCommand : Obligations.ResetAbandonsTheCommand := by
  unfold Obligations.ResetAbandonsTheCommand
  intro s hu hr
  have hstep := step_of_reset hu hr
  refine ⟨by simp [cmdReady, hr], hstep, fun t ht => ?_⟩
  obtain rfl : tick (resetEdge s) = t := Host.Outcome.next.inj (hstep.symm.trans ht)
  exact ⟨rfl, rfl, rfl, rfl⟩

/-- Out of IDLE and with no step left until RESP, the engine is in RESP. -/
theorem resp_of_no_steps {s : State} (busy : s.ph ≠ .idle) (h : stepsToResponse s = 0) : s.ph = .resp := by
  have hlt : s.rnd.toNat < 16 := s.rnd.isLt
  cases hp : s.ph with
  | idle => exact absurd hp busy
  | round => simp only [stepsToResponse, hp] at h; omega
  | final => simp [stepsToResponse, hp] at h
  | resp => rfl

/-- A round or the final step keeps the command in progress and takes no response (R147 to R149). -/
theorem Transition.towards_response {c : Cfg} {s t : State} (h : Transition c s t)
    (hs : s.ph = .round ∨ s.ph = .final) : t.ph ≠ .idle ∧ t.taken = s.taken := by
  cases h with
  | wait idle => simp [idle] at hs
  | setkey accepted | encrypt accepted | decrypt accepted => simp [idle_of_acceptEvent accepted] at hs
  | round inRound =>
    refine ⟨?_, advanceRound_taken _ s⟩
    rw [advanceRound_ph, inRound]
    split <;> decide
  | final => simp
  | respond inResp | hold inResp => simp [inResp] at hs

/-- Without reset a command in progress, whatever it works on, reaches RESP in the steps that remain (R152, R198). -/
theorem stepsWith_reaches_resp (c : Cfg) {n : Nat} {s : State} (hn : stepsToResponse s = n) (hu : s.unitSel = none)
    (busy : s.ph ≠ .idle) (rst : noReset (s.ports.take n)) :
    ∃ t, stepsWith c n s = .next t ∧ t.ph = .resp ∧ t.taken = s.taken := by
  induction n generalizing s with
  | zero => exact ⟨s, rfl, resp_of_no_steps busy hn, rfl⟩
  | succ n ih =>
    have before : s.ph = .round ∨ s.ph = .final := by
      cases hp : s.ph <;> simp [stepsToResponse, hp] at hn ⊢
    obtain ⟨u, hsu⟩ := exists_transition c hu
    obtain ⟨hports, -, hunit⟩ := hsu.keeps
    obtain ⟨hbusy, htaken⟩ := hsu.towards_response before
    have hremain : stepsToResponse (tick u) = n := Nat.succ.inj ((hsu.stepsToResponse_eq before).symm.trans hn)
    have hrest : (tick u).ports = s.ports.tail := congrArg List.tail hports
    obtain ⟨t, ht, hp, htt⟩ := ih hremain (hunit.trans hu) hbusy (hrest ▸ forall_take_tail rst)
    refine ⟨t, ?_, hp, htt.trans htaken⟩
    rw [stepsWith_succ n hu (inputs_of_forall (P := fun p => p.rst = false) rfl rst) hsu, ht]

/-- Settles O54: in ROUND the steps that remain until RESP are `17 - RND`. -/
theorem roundsReachTheResponse : Obligations.RoundsReachTheResponse := by
  unfold Obligations.RoundsReachTheResponse
  intro s hu hp rst
  obtain ⟨t, ht, tp, tt⟩ := stepsWith_reaches_resp installed (n := 17 - s.rnd.toNat) (by simp [stepsToResponse, hp]) hu
    (by simp [hp]) (fun p hmem => rst p (List.mem_of_mem_take hmem))
  exact ⟨t, (run_eq_stepsWith _ s).trans ht, tp, (rspValid_iff t).mpr tp, tt⟩

end Sys2Proof.Machine
end

section
/-! The words that the spec writes out (R71, R76, R77): each is read off the encoder, which the decoder undoes. -/

namespace Sys2Proof

/-- A word that encodes an instruction decodes to it. -/
theorem decode_eq_of_encode_eq {w : Code} {i : Instr} (h : encode i = w) : decode w = i :=
  h ▸ decode_encode i

/-- Settles O3: each word is the encoding of its instruction. -/
theorem wordsOfTheSpecDecode : Obligations.WordsOfTheSpecDecode := by
  unfold Obligations.WordsOfTheSpecDecode
  and_intros <;> exact decode_eq_of_encode_eq rfl

end Sys2Proof
end

section
/-! The accept steps of the block commands with whatever key they read, and so with the free key before any `SETKEY`
(R145, R146, R178; log 3). -/

namespace Sys2Proof.Machine

/-- `ENCRYPT` on a ready engine starts with the key that the accept step reads (R145). -/
theorem exec_encrypt_ready {s : State} (block : Block) (h : cmdReady s = true) :
    exec (.encrypt block) s = .next (startBlock false (encStart installed (keyRead s) block) s) :=
  whenReady_ready _ h

/-- `DECRYPT` on a ready engine starts as `ENCRYPT` does but for `DIR`: the pre-rotation is the identity (R146). -/
theorem exec_decrypt_ready {s : State} (block : Block) (h : cmdReady s = true) :
    exec (.decrypt block) s = .next (startBlock true (encStart installed (keyRead s) block) s) := by
  rw [encStart, ← decStart_eq]
  exact whenReady_ready _ h

/-- Settles O21: both commands start with the key that the accept step reads, which is the free one. -/
theorem blockCommandBeforeAnyKeyRuns : Obligations.BlockCommandBeforeAnyKeyRuns := by
  unfold Obligations.BlockCommandBeforeAnyKeyRuns
  intro s block hp hr hk
  have ready : cmdReady s = true := (cmdReady_iff s).mpr ⟨hp, hr⟩
  rw [exec_encrypt_ready block ready, exec_decrypt_ready block ready, keyRead_of_not_kv hk]
  exact ⟨rfl, rfl⟩

end Sys2Proof.Machine
end
